-- ==== Sys2Proof/Word.lean ====
section
/-! DEFINITION. The widths of the block's values: R10 (a byte is 8 bits, a value index is 6 bits, a symbol is W bits)
and R51 (a command word is 32 bits). -/

namespace Sys2Proof

/-- A byte: the element of an `ENC` payload and of a `DEC` output (R10, R43). -/
abbrev Byte := BitVec 8

/-- A value index, 0 to 63 (R7, R10). -/
abbrev Index := BitVec 6

/-- A 32-bit command word (R51). -/
abbrev CmdWord := BitVec 32

/-- A symbol, as the number its W bits spell. "The only operation the block performs on a symbol is an equality test
between two W-bit values" (R8), so a symbol is held as a number and never as bits to mask or shift. That it lies below
`2 ^ W` is checked where symbols enter (log 4). -/
abbrev Symbol := Nat

/-- One element of a payload as the transport carries it: the opcode says whether it is read as a byte or as a symbol
(R56, log 5). -/
abbrev Element := Nat

end Sys2Proof
end

