-- ==== Sys2Proof/Config.lean ====
section
/-! DEFINITION. What one build of the block fixes (R7, and the table of OPEN parameters of 92_eei_decisions.md), and the
one value the spec leaves unspecified for good (R26, R84). -/

namespace Sys2Proof

/-- The parameters of a build (R7). `none` for a limit stands for "unbounded". -/
structure Params where
  /-- `W`, the width of a symbol in bits. -/
  w : Nat
  /-- `PAD_SYM`, the code of the pad symbol. -/
  padSym : Symbol
  /-- `MAX_CFG_LEN`, the most symbols a `CFG` payload may carry. -/
  maxCfgLen : Option Nat
  /-- `MAX_ENC_LEN`, the most bytes an `ENC` payload may carry. -/
  maxEncLen : Option Nat
  /-- `MAX_DEC_LEN`, the most symbols a `DEC` payload may carry. -/
  maxDecLen : Option Nat
deriving DecidableEq, Repr

/-- The ranges R7 allows: `W >= 6`, the pad symbol a W-bit value, `MAX_CFG_LEN` at least 65. -/
abbrev Params.Ok (p : Params) : Prop :=
  6 ≤ p.w ∧ p.padSym < 2 ^ p.w ∧ p.maxCfgLen.all (fun n => decide (65 ≤ n)) = true

/-- The build of the spec's own examples (92_eei_decisions.md, "Parameters left OPEN"): `W = 8`, `PAD_SYM = 0x3D`,
every payload limit unbounded. DESIGN CHOICE (log 3): the machine of `State.reset` is this build. -/
def Params.default : Params :=
  { w := 8, padSym := 0x3D, maxCfgLen := none, maxEncLen := none, maxDecLen := none }

/-- The index bits that the lookup port of `reverse_alphabet_lut` shows for a symbol that misses: "unspecified when not
hit, and never used then" (R84, R26). A FREE VALUE (log 8): it has no body, so nothing can be proved of it. -/
opaque Config.missIndex : Symbol → Index

end Sys2Proof
end

