-- ==== Sys2Proof/Syntax.lean ====
section
/-! DEFINITION. The commands of the block: the pair (word, payload) the host issues (R50), and the instruction it stands
for, one constructor per row of spec/opcode_table.json. -/

namespace Sys2Proof

/-- A command as the host issues it (R50): a 32-bit word and a whole payload (R38). -/
structure Command where
  word : CmdWord
  payload : List Element
deriving DecidableEq, Repr

/-- The instructions. The payload is the data operand (R59), its element type is the opcode's (R56). -/
inductive Instr where
  /-- `CFG` (R67): load the alphabet `alphabet` with the padding flag `pad`. -/
  | cfg (pad : Bool) (alphabet : List Symbol)
  /-- `ENC` (R85): encode the bytes `data`. -/
  | enc (data : List Byte)
  /-- `DEC` (R100): decode the symbols `text`. -/
  | dec (text : List Symbol)
  /-- Any other command word (R55, row `(illegal)`). The payload is ignored (R56, R121) and is no operand. -/
  | illegal (word : CmdWord)
deriving DecidableEq, Repr

end Sys2Proof
end

