-- ==== Sys2Proof/Decode.lean ====
section
/-! DEFINITION. Decoding a command (R51 to R56, R61), the encoder, and the command forms of the spec's own assembler
(R63 to R65). -/

namespace Sys2Proof

/-! ## The fields of the command word (R51) -/

/-- `OPC`, bits 3:0. -/
def opcField (w : CmdWord) : BitVec 4 := w.extractLsb' 0 4

/-- `PAD`, bit 4. One bit, taken as it is (R53). -/
def padField (w : CmdWord) : Bool := w.getLsbD 4

/-- `RSV`, bits 31:5. -/
def rsvField (w : CmdWord) : BitVec 27 := w.extractLsb' 5 27

/-- R55's formula for a legal word. -/
def legal (w : CmdWord) : Bool :=
  rsvField w == 0 && (opcField w == 1 || ((opcField w == 2 || opcField w == 3) && !padField w))

/-- What a command word asks for, before its payload is looked at. -/
inductive Kind where
  | cfg (pad : Bool)
  | enc
  | dec
  | illegal
deriving DecidableEq, Repr

/-- "Decoding looks first at `RSV`, then at `OPC`, then at `PAD`" (R61), with the opcode values of R52. -/
def decodeWord (w : CmdWord) : Kind :=
  if rsvField w ≠ 0 then .illegal
  else if opcField w = 1 then .cfg (padField w)
  else if opcField w = 2 then (if padField w then .illegal else .enc)
  else if opcField w = 3 then (if padField w then .illegal else .dec)
  else .illegal

/-! ## The payload (R49, R56) -/

/-- A W-bit value (R10). -/
def symbolFits (p : Params) (a : Symbol) : Bool := decide (a < 2 ^ p.w)

/-- An 8-bit value (R10). -/
def byteFits (e : Element) : Bool := decide (e < 256)

/-- Whether a payload of `n` elements is within the limit `cap` (R7, R49). -/
def withinCap (cap : Option Nat) (n : Nat) : Bool := cap.all (fun m => decide (n ≤ m))

/-- Why a command has no instruction: its payload holds an element that is no value of the type its opcode selects, so
that no transport of R56 carries it (log 5). -/
inductive DecodeError where
  | byteTooWide
  | symbolTooWide
deriving DecidableEq, Repr

/-- The instruction of a command. Every word has one (R62); only the payload can be rejected. -/
def decode (p : Params) (c : Command) : Except DecodeError Instr :=
  match decodeWord c.word with
  | .cfg pad => if c.payload.all (symbolFits p) then .ok (.cfg pad c.payload) else .error .symbolTooWide
  | .enc => if c.payload.all byteFits then .ok (.enc (c.payload.map (BitVec.ofNat 8))) else .error .byteTooWide
  | .dec => if c.payload.all (symbolFits p) then .ok (.dec c.payload) else .error .symbolTooWide
  | .illegal => .ok (.illegal c.word)

/-! ## The encoder -/

/-- A command word from its fields, `RSV = 0` (R51). -/
def cmdWord (opc : BitVec 4) (pad : Bool) : CmdWord := (0 : BitVec 27) ++ (BitVec.ofBool pad ++ opc)

/-- The command of an instruction (R52, R53, R56). -/
def encode : Instr → Command
  | .cfg pad alphabet => ⟨cmdWord 1 pad, alphabet⟩
  | .enc data => ⟨cmdWord 2 false, data.map BitVec.toNat⟩
  | .dec text => ⟨cmdWord 3 false, text⟩
  | .illegal word => ⟨word, []⟩

/-! ## Words numbered as spec/opcode_table.json numbers them -/

/-- The command whose word is the `nbits` low bits of `w`, with the empty payload: the table gives the payload no bits
(log 11). -/
def tableCommand (nbits w : Nat) : Command := ⟨BitVec.ofNat 32 (w % 2 ^ nbits), []⟩

/-- The instruction the decoder reads from an opcode-table word. -/
def decodeTableWord (nbits w : Nat) : Option Instr :=
  match decode Params.default (tableCommand nbits w) with
  | .ok i => some i
  | .error _ => none

/-! ## The command forms of 95_test_vectors.md (R63 to R65)

Notation of the spec's programs, "not part of the hardware" (92_eei_decisions.md D22). Statements are held as data; how
a line is laid out as text is not (log 16). -/

/-- Codes from `first` on, `n` of them. -/
def codesFrom (first n : Nat) : List Symbol := (List.range n).map (first + ·)

/-- `A`–`Z`, `a`–`z`, `0`–`9`: the indices 0 to 61 of both alphabets of R64. -/
def alnum62 : List Symbol := codesFrom 0x41 26 ++ codesFrom 0x61 26 ++ codesFrom 0x30 10

/-- `STD64` (R64): `+` at 62 and `/` at 63. -/
def std64 : List Symbol := alnum62 ++ [0x2B, 0x2F]

/-- `URL64` (R64): `-` at 62 and `_` at 63. -/
def url64 : List Symbol := alnum62 ++ [0x2D, 0x5F]

/-- The payload literals of R63. -/
inductive Literal where
  /-- `"..."` or `b"..."`: the characters' codes. -/
  | chars (cs : List Char)
  /-- `x"fb ef bf"`. -/
  | hex (es : List Element)
  /-- `[]`. -/
  | empty
  | std64
  | url64
deriving DecidableEq, Repr

/-- The elements a literal stands for. PRESUMED (log 14): a character's code is its ASCII code. -/
def Literal.elements : Literal → List Element
  | .chars cs => cs.map Char.toNat
  | .hex es => es
  | .empty => []
  | .std64 => Sys2Proof.std64
  | .url64 => Sys2Proof.url64

/-- The assembler's statements: the four forms of R63 and the two pseudo-commands of R65. -/
inductive Asm where
  | cfg (pad : Bool) (payload : Literal)
  | enc (payload : Literal)
  | dec (payload : Literal)
  | word (w : CmdWord) (payload : Literal)
  | cfgStd (pad : Bool)
  | cfgUrl (pad : Bool)
deriving DecidableEq, Repr

/-- The command a statement assembles to, with the words R63 and R65 write out. -/
def assemble : Asm → Command
  | .cfg pad l => ⟨if pad then 0x00000011 else 0x00000001, l.elements⟩
  | .enc l => ⟨0x00000002, l.elements⟩
  | .dec l => ⟨0x00000003, l.elements⟩
  | .word w l => ⟨w, l.elements⟩
  | .cfgStd pad => ⟨if pad then 0x00000011 else 0x00000001, std64⟩
  | .cfgUrl pad => ⟨if pad then 0x00000011 else 0x00000001, url64⟩

end Sys2Proof
end

