-- ==== Sys2Proof/WellFormed.lean ====
section
/-! DEFINITION. The well-formed instructions of a build: the ones some admitted command stands for. -/

namespace Sys2Proof

/-- An instruction is well formed when its payload is within its limit (R7, R49), its symbols are W-bit values (R56),
and an illegal one holds an illegal word (R55). Bytes are 8-bit values by their type. -/
def Instr.wf (p : Params) : Instr → Bool
  | .cfg _ alphabet => withinCap p.maxCfgLen alphabet.length && alphabet.all (symbolFits p)
  | .enc data => withinCap p.maxEncLen data.length
  | .dec text => withinCap p.maxDecLen text.length && text.all (symbolFits p)
  | .illegal word => !legal word

end Sys2Proof
end

