-- ==== Sys2Proof/Machine/State.lean ====
section
/-! DEFINITION. The state of the block, what a step can stop with, the response record and the reset state. -/

namespace Sys2Proof.Machine

/-- The stops on a read of a lookup-table entry that nothing has written. "A model holds no value (reading one is a
fault)" (R32), "never faults on an admitted command" (R138). -/
inductive Fault where
  /-- Raised by `ENC` on an unwritten entry of `ALPHABET_LUT` (R32). Safe: the hardware would go on with a value the
  spec does not give. -/
  | alphabetLutUnwritten
  /-- Raised by `DEC` on an unwritten entry of `REVERSE_LUT` (R32). Safe, for the same reason. -/
  | reverseLutUnwritten
deriving DecidableEq, Repr

/-- The commands to which the model gives no step. -/
inductive Refusal where
  /-- Raised by an arm of `exec` whose instruction has no meaning yet; no arm does. -/
  | notModelled (mnemonic : String)
  /-- Raised by every command with a payload: the payload is longer than its limit; "a model gives it no step" (R49).
  Safe. -/
  | payloadOverCapacity
  /-- Raised when an `ENC` payload holds an element that is no 8-bit value, which no transport of R56 carries. Safe. -/
  | byteTooWide
  /-- Raised when a `CFG` or `DEC` payload holds an element that is no W-bit value (R56). Safe. -/
  | symbolTooWide
deriving DecidableEq, Repr

/-- The result codes (R120). -/
inductive Result where
  | ok
  | invalidAlphabetLength
  | invalidAlphabetDuplicate
  | invalidInputSymbol
  | invalidInputTruncatedGroup
  | notConfigured
  | illegalCommand
deriving DecidableEq, Repr

/-- The source's two error kinds (R15). -/
inductive ErrorKind where
  | invalidAlphabet
  | invalidInput
deriving DecidableEq, Repr

/-- The `out` field of a response (R57, R43): symbols for `ENC`, bytes for `DEC`, and nothing for `CFG` and for every
error. -/
inductive Output where
  | empty
  | symbols (out : List Symbol)
  | bytes (out : List Byte)
deriving DecidableEq, Repr

/-- A response (R57). -/
structure Response where
  result : Result
  out : Output
  errPos : Option Nat
  errSym : Option Symbol
deriving DecidableEq, Repr

/-- `ALPHABET_LUT[0..63]` (R25). An entry is `none` while it is unspecified (R32). -/
abbrev AlphabetLut := Vector (Option Symbol) 64

/-- One entry of `REVERSE_LUT` (R26). -/
inductive ReverseEntry where
  /-- Unspecified, as after reset (R32). -/
  | unwritten
  /-- The spec's `none`: the symbol is not in the alphabet. -/
  | absent
  /-- The spec's `some i`. -/
  | index (i : Index)
deriving DecidableEq, Repr

/-- `REVERSE_LUT[0..2^W-1]` (R26, R37): the entry of symbol `s` stands at place `s`. -/
abbrev ReverseLut := List ReverseEntry

/-- What reaches the block from outside, in the order it arrives. -/
inductive Input where
  /-- A command the host issues (R50). -/
  | command (c : Command)
  /-- A reset between two commands (R140). -/
  | reset
  /-- A reset that arrives while the command `c` runs (R142). -/
  | resetDuring (c : Command)
deriving DecidableEq, Repr

/-- The state. The four elements of R20 are the block's own state. `params` is the build (R7), which no step changes
(log 3). `pending` and `responses` are the host's side of the interface (R46, R144): the inputs still to come, oldest
first, and the responses returned so far, oldest first (log 1). -/
structure State where
  params : Params
  /-- `CFG_VALID` (R22). -/
  cfgValid : Bool
  /-- `PAD_EN` (R23). -/
  padEn : Bool
  /-- `ALPHABET_LUT` (R25). -/
  alphabetLut : AlphabetLut
  /-- `REVERSE_LUT` (R26). -/
  reverseLut : ReverseLut
  pending : List Input
  responses : List Response
deriving DecidableEq, Repr

/-- The state right after reset (R32, R140) of the build `Params.default`: not configured, the padding flag 0, no entry
of either table holding a value; no input has arrived and no response has been returned. -/
def State.reset : State :=
  { params := Params.default
    cfgValid := false
    padEn := false
    alphabetLut := Vector.replicate 64 none
    reverseLut := List.replicate (2 ^ Params.default.w) .unwritten
    pending := []
    responses := [] }

end Sys2Proof.Machine
end

