-- ==== Sys2Proof/Machine/Ops.lean ====
section
/-! DEFINITION. The operations the commands share: returning a response (R12, R57), the ports of the two lookup tables
(R12, R72 to R75, R84), and what the block does on a reset (R140, R142). -/

namespace Sys2Proof.Machine

/-! ## Result codes (R120, R15) -/

/-- The 4-bit code of a result. -/
def Result.code : Result → BitVec 4
  | .ok => 0x0
  | .invalidAlphabetLength => 0x1
  | .invalidAlphabetDuplicate => 0x2
  | .invalidInputSymbol => 0x3
  | .invalidInputTruncatedGroup => 0x4
  | .notConfigured => 0x5
  | .illegalCommand => 0x6

/-- The source's error kind of a result, where it has one. -/
def Result.kind : Result → Option ErrorKind
  | .ok => none
  | .invalidAlphabetLength => some .invalidAlphabet
  | .invalidAlphabetDuplicate => some .invalidAlphabet
  | .invalidInputSymbol => some .invalidInput
  | .invalidInputTruncatedGroup => some .invalidInput
  | .notConfigured => none
  | .illegalCommand => none

/-- How many elements `out` holds (R43). -/
def Output.length : Output → Nat
  | .empty => 0
  | .symbols out => out.length
  | .bytes out => out.length

/-! ## Responding (R12, R57) -/

/-- The state once the response `r` is returned. The block keeps nothing of it (R30); the host has it. -/
def State.respond (s : State) (r : Response) : State := { s with responses := s.responses ++ [r] }

/-- The response of a command that completed (R58). -/
def okResponse (out : Output) : Response := { result := .ok, out := out, errPos := none, errSym := none }

/-- The response of a command that failed: no output (R58). -/
def errorResponse (result : Result) (pos : Option Nat) (sym : Option Symbol) : Response :=
  { result := result, out := .empty, errPos := pos, errSym := sym }

/-- `respond(OK, out, none, none)`. -/
def complete (s : State) (out : Output) : Host.Outcome State Fault Refusal := .next (s.respond (okResponse out))

/-- `raise <Error>(pos, sym)` (R12): the command ends at once with the error, and no state is written (R123). This is all
an error does: there is no trap entry (R129) and so no return from one (R130). -/
def raise (s : State) (result : Result) (pos : Option Nat) (sym : Option Symbol) :
    Host.Outcome State Fault Refusal :=
  .next (s.respond (errorResponse result pos sym))

/-! ## alphabet_lut -/

/-- `ALUT_READ(i)` (R72); `none` for an entry that holds no value (R32). -/
def alutRead (lut : AlphabetLut) (i : Index) : Option Symbol := lut[i.toNat]'i.isLt

/-- `ALUT_WRITE(i, a)` (R73). -/
def alutWrite (lut : AlphabetLut) (i : Index) (a : Symbol) : AlphabetLut := lut.set i.toNat (some a) i.isLt

/-- `for i in 0 .. 63: ALUT_WRITE(i, A[i])` (R67), from index `i` on. -/
def alutFill (lut : AlphabetLut) (i : Nat) : List Symbol → AlphabetLut
  | [] => lut
  | a :: rest => alutFill (alutWrite lut (BitVec.ofNat 6 i) a) (i + 1) rest

/-! ## reverse_alphabet_lut -/

/-- The entry `RLUT_BUILD` writes for the symbol `a` (R74). -/
def rlutEntry (alphabet : List Symbol) (a : Symbol) : ReverseEntry :=
  match alphabet.idxOf? a with
  | some i => .index (BitVec.ofNat 6 i)
  | none => .absent

/-- `RLUT_BUILD(A)` (R74): every one of the `2^W` entries is written. -/
def rlutBuild (w : Nat) (alphabet : List Symbol) : ReverseLut := (List.range (2 ^ w)).map (rlutEntry alphabet)

/-- The stored entry of the symbol `a`. -/
def rlutAt (lut : ReverseLut) (a : Symbol) : ReverseEntry := lut.getD a .unwritten

/-- The port "lookup hit" (R84). -/
def rlutHit : ReverseEntry → Bool
  | .index _ => true
  | .absent => false
  | .unwritten => false

/-- The port "lookup index" (R84): unspecified when the lookup misses (log 8). -/
def rlutIndex (a : Symbol) : ReverseEntry → Index
  | .index i => i
  | .absent => Config.missIndex a
  | .unwritten => Config.missIndex a

/-- `RLUT_LOOKUP(a)` (R75), read off the two ports; the outer `none` is an entry that holds no value (R32). -/
def rlutLookup (lut : ReverseLut) (a : Symbol) : Option (Option Index) :=
  if rlutAt lut a = .unwritten then none
  else if rlutHit (rlutAt lut a) then some (some (rlutIndex a (rlutAt lut a)))
  else some none

/-! ## Inputs -/

/-- The state once the oldest input is taken. -/
def State.setPending (s : State) (rest : List Input) : State := { s with pending := rest }

/-- The four elements as R32 gives them after reset. The build stays, and so does what the host holds: the inputs that
come later and the responses it already has (log 9). -/
def State.resetElements (s : State) : State :=
  { s with
    cfgValid := false
    padEn := false
    alphabetLut := Vector.replicate 64 none
    reverseLut := List.replicate (2 ^ s.params.w) .unwritten }

/-- A reset between commands (R140). -/
def takeReset (s : State) : Host.Outcome State Fault Refusal := .next s.resetElements

/-- A reset while a command runs (R142): "That command returns no response, and the state is the reset state." -/
def abandonCommand (_c : Command) (s : State) : Host.Outcome State Fault Refusal := .next s.resetElements

/-- No input has arrived: the block keeps its state (R137). DESIGN CHOICE (log 2): such a step changes nothing. -/
def idle (s : State) : Host.Outcome State Fault Refusal := .next s

/-- A command whose payload no transport carries has no step (log 5). -/
def rejectPayload : DecodeError → Host.Outcome State Fault Refusal
  | .byteTooWide => .refused .byteTooWide
  | .symbolTooWide => .refused .symbolTooWide

end Sys2Proof.Machine
end

