-- ==== Sys2Proof/Machine/Flags.lean ====
section
/-! DEFINITION. The block's two flags, `CFG_VALID` and `PAD_EN` (R22, R23, R31): the one write a successful `CFG` makes to
them (R80). -/

namespace Sys2Proof.Machine

/-- `PAD_EN <- word[4]` and `CFG_VALID <- 1` (R70). -/
def State.setFlags (s : State) (pad : Bool) : State := { s with padEn := pad, cfgValid := true }

end Sys2Proof.Machine
end

