-- ==== Sys2Proof/Machine/Operands.lean ====
section
/-! DEFINITION. The operand forms (R59): a whole payload of bytes or of symbols, and when the block accepts one (R49,
R56). -/

namespace Sys2Proof.Machine

/-- Whether the block accepts a payload of symbols: `none` when it does, else the refusal (R49, R56). -/
def refuseSymbols (p : Params) (cap : Option Nat) (symbols : List Symbol) : Option Refusal :=
  if withinCap cap symbols.length then
    if symbols.all (symbolFits p) then none else some .symbolTooWide
  else some .payloadOverCapacity

/-- Whether the block accepts a payload of bytes: `none` when it does, else the refusal (R49). -/
def refuseBytes (cap : Option Nat) (bytes : List Byte) : Option Refusal :=
  if withinCap cap bytes.length then none else some .payloadOverCapacity

end Sys2Proof.Machine
end

