-- ==== Sys2Proof/Machine/Configure.lean ====
section
/-! DEFINITION. `CFG` (40_configure.md). -/

namespace Sys2Proof.Machine

/-- The first symbol of `rest` that repeats an earlier one, with its index; `rest` begins at index `j` and `seen` holds
the symbols before it. -/
def firstRepeatFrom (j : Nat) (seen : List Symbol) : List Symbol → Option (Nat × Symbol)
  | [] => none
  | a :: rest => if a ∈ seen then some (j, a) else firstRepeatFrom (j + 1) (a :: seen) rest

/-- The loop of R69 over the payload `A`: the smallest `j` such that `A[j]` equals some `A[i]` with `i < j`, and
`A[j]`. -/
def firstRepeat (alphabet : List Symbol) : Option (Nat × Symbol) := firstRepeatFrom 0 [] alphabet

/-- The two table writes of the commit (R70). -/
def State.loadTables (s : State) (alphabet : List Symbol) : State :=
  { s with
    alphabetLut := alutFill s.alphabetLut 0 alphabet
    reverseLut := rlutBuild s.params.w alphabet }

/-- The commit (R70): all four elements, together. -/
def State.commit (s : State) (pad : Bool) (alphabet : List Symbol) : State :=
  (s.loadTables alphabet).setFlags pad

/-- `CFG` (R67), on a payload the block accepts (R49). -/
def execCfg (pad : Bool) (alphabet : List Symbol) (s : State) : Host.Outcome State Fault Refusal :=
  match refuseSymbols s.params s.params.maxCfgLen alphabet with
  | some r => .refused r
  | none =>
    if alphabet.length ≠ 64 then raise s .invalidAlphabetLength (some alphabet.length) none
    else
      match firstRepeat alphabet with
      | some (j, a) => raise s .invalidAlphabetDuplicate (some j) (some a)
      | none => complete (s.commit pad alphabet) .empty

end Sys2Proof.Machine
end

