-- ==== Sys2Proof/Machine/DecodeText.lean ====
section
/-! DEFINITION. `DEC` and the sub-block `base64_decoder` (42_decode.md). -/

namespace Sys2Proof.Machine

/-! ## Pad stripping (R102) -/

/-- The length `p` of the trailing pad run: the longest suffix of `text` made only of `padSym`. -/
def padRun (padSym : Symbol) (text : List Symbol) : Nat := (text.reverse.takeWhile (fun a => a == padSym)).length

/-- `S = T[0 : m0 - p]`, with `p = 0` when padding is off. -/
def stripPads (padSym : Symbol) (padEn : Bool) (text : List Symbol) : List Symbol :=
  text.take (text.length - (if padEn then padRun padSym text else 0))

/-! ## The byte computation (R107) -/

/-- `byte1 = (i1 << 2) | (i2 >> 4)`. -/
def decByte1 (i1 i2 : Index) : Byte := (i1.setWidth 8 <<< 2) ||| (i2.setWidth 8 >>> 4)

/-- `byte2 = ((i2 & 0x0F) << 4) | (i3 >> 2)`. -/
def decByte2 (i2 i3 : Index) : Byte := ((i2.setWidth 8 &&& 0x0F) <<< 4) ||| (i3.setWidth 8 >>> 2)

/-- `byte3 = ((i3 & 0x03) << 6) | i4`. -/
def decByte3 (i3 i4 : Index) : Byte := ((i3.setWidth 8 &&& 0x03) <<< 6) ||| i4.setWidth 8

/-- `DEC_GROUP(i1, i2, i3, i4, L)` (R117): the 1, 2 or 3 bytes of a group of `L` symbols (R108). -/
def decGroup (i1 i2 i3 i4 : Index) (l : Nat) : List Byte :=
  decByte1 i1 i2 :: ((if 3 ≤ l then [decByte2 i2 i3] else []) ++ (if l = 4 then [decByte3 i3 i4] else []))

/-! ## Lookup and groups (R104 to R106) -/

/-- How the work on a text can end early. -/
inductive DecFail where
  /-- The symbol `a` at index `q` is not in the alphabet (R105). -/
  | symbol (q : Nat) (a : Symbol)
  /-- The last group, which ends the text at `m`, has one symbol (R106). -/
  | truncated (m : Nat)
  /-- A table entry that holds no value was read (R32). -/
  | unwritten
deriving DecidableEq, Repr

/-- `lookup(q)` of R101, the symbol at index `q` being `a`. -/
def lookupAt (lut : ReverseLut) (q : Nat) (a : Symbol) : Except DecFail Index :=
  match rlutLookup lut a with
  | some (some i) => .ok i
  | some none => .error (.symbol q a)
  | none => .error .unwritten

/-- The groups of R104, left to right, from index `q` on; within a group the lookups go left to right, and the test for
a one-symbol group comes right after its one lookup (R101). -/
def decText (lut : ReverseLut) (q : Nat) : List Symbol → Except DecFail (List Byte)
  | [] => .ok []
  | [a1] => do
    let _ ← lookupAt lut q a1
    .error (.truncated (q + 1))
  | [a1, a2] => do
    let i1 ← lookupAt lut q a1
    let i2 ← lookupAt lut (q + 1) a2
    .ok (decGroup i1 i2 0 0 2)
  | [a1, a2, a3] => do
    let i1 ← lookupAt lut q a1
    let i2 ← lookupAt lut (q + 1) a2
    let i3 ← lookupAt lut (q + 2) a3
    .ok (decGroup i1 i2 i3 0 3)
  | a1 :: a2 :: a3 :: a4 :: rest => do
    let i1 ← lookupAt lut q a1
    let i2 ← lookupAt lut (q + 1) a2
    let i3 ← lookupAt lut (q + 2) a3
    let i4 ← lookupAt lut (q + 3) a4
    let out ← decText lut (q + 4) rest
    .ok (decGroup i1 i2 i3 i4 4 ++ out)

/-- `DEC` (R101), on a payload the block accepts (R49). -/
def execDec (text : List Symbol) (s : State) : Host.Outcome State Fault Refusal :=
  match refuseSymbols s.params s.params.maxDecLen text with
  | some r => .refused r
  | none =>
    match s.cfgValid with
    | false => raise s .notConfigured none none
    | true =>
      match decText s.reverseLut 0 (stripPads s.params.padSym s.padEn text) with
      | .ok out => complete s (.bytes out)
      | .error (.symbol q a) => raise s .invalidInputSymbol (some q) (some a)
      | .error (.truncated m) => raise s .invalidInputTruncatedGroup (some m) none
      | .error .unwritten => .fault .reverseLutUnwritten

end Sys2Proof.Machine
end

