-- ==== Sys2Proof/Machine/EncodeBytes.lean ====
section
/-! DEFINITION. `ENC` and the sub-block `base64_encoder` (41_encode.md). -/

namespace Sys2Proof.Machine

/-! ## The index computation (R89) -/

/-- `idx1 = b1 >> 2`. -/
def encIdx1 (b1 : Byte) : Index := (b1 >>> 2).setWidth 6

/-- `idx2 = ((b1 & 0x03) << 4) | (b2 >> 4)`. -/
def encIdx2 (b1 b2 : Byte) : Index := (((b1 &&& 0x03) <<< 4) ||| (b2 >>> 4)).setWidth 6

/-- `idx3 = ((b2 & 0x0F) << 2) | (b3 >> 6)`. -/
def encIdx3 (b2 b3 : Byte) : Index := (((b2 &&& 0x0F) <<< 2) ||| (b3 >>> 6)).setWidth 6

/-- `idx4 = b3 & 0x3F`. -/
def encIdx4 (b3 : Byte) : Index := (b3 &&& 0x3F).setWidth 6

/-! ## The group encoder (R87) -/

/-- The third or fourth place of a group: its symbol when it is live, else a pad when padding is on, else nothing
(R90). -/
def encLane (lut : AlphabetLut) (padSym : Symbol) (pad live : Bool) (i : Index) : Option (List Symbol) :=
  if live then (alutRead lut i).map (fun a => [a])
  else if pad then some [padSym]
  else some []

/-- `ENC_GROUP(b1, b2, b3, r, pad)`: the 2, 3 or 4 symbols of one group with `r` real bytes; `none` when a table entry
it reads holds no value. -/
def encGroup (lut : AlphabetLut) (padSym : Symbol) (b1 b2 b3 : Byte) (r : Nat) (pad : Bool) : Option (List Symbol) :=
  match alutRead lut (encIdx1 b1), alutRead lut (encIdx2 b1 b2),
    encLane lut padSym pad (decide (2 ≤ r)) (encIdx3 b2 b3), encLane lut padSym pad (decide (r = 3)) (encIdx4 b3) with
  | some a1, some a2, some lane3, some lane4 => some (a1 :: a2 :: (lane3 ++ lane4))
  | _, _, _, _ => none

/-- The groups of R88, left to right, an absent byte read as 0. -/
def encText (lut : AlphabetLut) (padSym : Symbol) (pad : Bool) : List Byte → Option (List Symbol)
  | [] => some []
  | [b1] => encGroup lut padSym b1 0 0 1 pad
  | [b1, b2] => encGroup lut padSym b1 b2 0 2 pad
  | b1 :: b2 :: b3 :: rest =>
    match encGroup lut padSym b1 b2 b3 3 pad, encText lut padSym pad rest with
    | some group, some out => some (group ++ out)
    | _, _ => none

/-- `ENC` (R86), on a payload the block accepts (R49). -/
def execEnc (data : List Byte) (s : State) : Host.Outcome State Fault Refusal :=
  match refuseBytes s.params.maxEncLen data with
  | some r => .refused r
  | none =>
    match s.cfgValid with
    | false => raise s .notConfigured none none
    | true =>
      match encText s.alphabetLut s.params.padSym s.padEn data with
      | some out => complete s (.symbols out)
      | none => .fault .alphabetLutUnwritten

end Sys2Proof.Machine
end

