-- ==== Sys2Proof/Machine/Illegal.lean ====
section
/-! DEFINITION. The answer to every illegal command word (R55, R121). -/

namespace Sys2Proof.Machine

/-- "It is returned before anything else is looked at: no state is read or written, and the payload is ignored" (R121).
The word itself says nothing more than that it is illegal. -/
def execIllegal (_word : CmdWord) (s : State) : Host.Outcome State Fault Refusal := raise s .illegalCommand none none

end Sys2Proof.Machine
end

