-- ==== Sys2Proof/Machine/Dispatch.lean ====
section
/-! DEFINITION. One arm per instruction. -/

namespace Sys2Proof.Machine

def exec (i : Instr) (s : State) : Host.Outcome State Fault Refusal :=
  match i with
  | .cfg pad alphabet => Sys2Proof.Machine.execCfg pad alphabet s
  | .enc data => Sys2Proof.Machine.execEnc data s
  | .dec text => Sys2Proof.Machine.execDec text s
  | .illegal word => Sys2Proof.Machine.execIllegal word s

end Sys2Proof.Machine
end

