-- ==== Sys2Proof/Machine/Step.lean ====
section
/-! DEFINITION. One step of the machine: it takes the oldest input (R46). A command is one step (R44). -/

namespace Sys2Proof.Machine

/-- One step. A command is decoded under the build's parameters and executed in the state in which it is no longer
pending (R50); a reset is taken (R140, R142); with no input the block waits. -/
def step (s : State) : Host.Outcome State Fault Refusal :=
  match s.pending with
  | [] => idle s
  | .reset :: rest => takeReset (s.setPending rest)
  | .resetDuring c :: rest => abandonCommand c (s.setPending rest)
  | .command c :: rest =>
    match decode s.params c with
    | .ok i => exec i (s.setPending rest)
    | .error e => rejectPayload e

/-- The state in which the very next step takes the command of an opcode-table word: the command stands before the inputs
already pending (log 11). -/
def State.withFetchWord (s : State) (nbits w : Nat) : State :=
  s.setPending (.command (tableCommand nbits w) :: s.pending)

end Sys2Proof.Machine
end

