-- ==== Sys2Proof/Safety.lean ====
section
/-! DEFINITION. The terms claims are stated in: the block's own state, the invariant of R20 to R32, and runs (R35,
R144). -/

namespace Sys2Proof.Machine

/-- The block's whole architectural state (R20): `CFG_VALID`, `PAD_EN`, `ALPHABET_LUT`, `REVERSE_LUT`. -/
def State.elements (s : State) : Bool × Bool × AlphabetLut × ReverseLut :=
  (s.cfgValid, s.padEn, s.alphabetLut, s.reverseLut)

/-- R27, entry by entry. The first clause is "`REVERSE_LUT[ALPHABET_LUT[i]] = some i`" (so the 64 entries are written and
pairwise distinct, R25); the second is "for all s not in" the alphabet, "`REVERSE_LUT[s] = none`". -/
def TablesAgree (w : Nat) (alphabet : AlphabetLut) (reverse : ReverseLut) : Prop :=
  (∀ i : Index, ∃ a, alutRead alphabet i = some a ∧ rlutAt reverse a = .index i) ∧
  (∀ a, a < 2 ^ w → (∀ i : Index, alutRead alphabet i ≠ some a) → rlutAt reverse a = .absent)

/-- What holds of every state the block can be in. -/
structure State.Inv (s : State) : Prop where
  /-- The build is one R7 allows. -/
  params_ok : s.params.Ok
  /-- `REVERSE_LUT` has `2^W` entries (R20, R37). -/
  reverse_size : s.reverseLut.length = 2 ^ s.params.w
  /-- While configured, the tables are each other's inverse (R25, R27). -/
  configured : s.cfgValid = true → TablesAgree s.params.w s.alphabetLut s.reverseLut
  /-- While not configured, the four elements are as reset leaves them (R22, R32). -/
  unconfigured : s.cfgValid = false →
    s.padEn = false ∧ s.alphabetLut = Vector.replicate 64 none ∧
      s.reverseLut = List.replicate (2 ^ s.params.w) .unwritten

/-- A command the interface contract admits in the build `p`: its payload is of the type its opcode selects (R56) and
within its limit (R49). -/
def Admitted (p : Params) (c : Command) : Prop := ∃ i, decode p c = .ok i ∧ i.wf p = true

/-- The text a `DEC` works on: `S` of R101, the payload without its trailing pad run when padding is on (R102). -/
def State.stripped (s : State) (text : List Symbol) : List Symbol := stripPads s.params.padSym s.padEn text

/-- The row of R120's table that a response `r` to the command `c`, issued in the state `s`, must fit: who raises the
result, its cause, and the error context. -/
def FitsRow (s : State) (c : Command) (r : Response) : Prop :=
  match r.result with
  | .ok => decodeWord c.word ≠ .illegal ∧ r.errPos = none ∧ r.errSym = none
  | .invalidAlphabetLength =>
      (∃ pad, decodeWord c.word = .cfg pad) ∧ c.payload.length ≠ 64 ∧
        r.errPos = some c.payload.length ∧ r.errSym = none
  | .invalidAlphabetDuplicate =>
      (∃ pad, decodeWord c.word = .cfg pad) ∧
        ∃ j a, r.errPos = some j ∧ r.errSym = some a ∧ c.payload[j]? = some a ∧ a ∈ c.payload.take j ∧
          (c.payload.take j).Nodup
  | .invalidInputSymbol =>
      decodeWord c.word = .dec ∧
        ∃ q a, r.errPos = some q ∧ r.errSym = some a ∧ c.payload[q]? = some a ∧
          q < (s.stripped c.payload).length ∧ rlutLookup s.reverseLut a = some none
  | .invalidInputTruncatedGroup =>
      decodeWord c.word = .dec ∧ (s.stripped c.payload).length % 4 = 1 ∧
        r.errPos = some (s.stripped c.payload).length ∧ r.errSym = none
  | .notConfigured =>
      (decodeWord c.word = .enc ∨ decodeWord c.word = .dec) ∧ s.cfgValid = false ∧
        r.errPos = none ∧ r.errSym = none
  | .illegalCommand => decodeWord c.word = .illegal ∧ r.errPos = none ∧ r.errSym = none

/-- Bit `n` of a byte sequence read from the top down (R39, R40): bit 0 is the most significant bit of the first byte.
Past the end it is 0, as an absent byte reads (R88). -/
def byteBit (data : List Byte) (n : Nat) : Bool := (data.getD (n / 8) 0).getMsbD (n % 8)

/-- Bit `n` of a sequence of 6-bit indices read from the top down (R39, R40). -/
def indexBit (indices : List Index) (n : Nat) : Bool := (indices.getD (n / 6) 0).getMsbD (n % 6)

/-- How many data symbols the encoding of `n` bytes has: the fewest that hold `8 n` bits, six a symbol. -/
def dataSymbols (n : Nat) : Nat := (8 * n + 5) / 6

/-- The state with the inputs `inputs` arriving after those already pending. -/
def State.issue (s : State) (inputs : List Input) : State := s.setPending (s.pending ++ inputs)

/-- What a run of `k` steps produces (R144, D26): the responses returned so far, where it has not stopped. -/
def observed (k : Nat) (s : State) : Option (List Response) :=
  match Sys2Proof.core.run k s with
  | .next t => some t.responses
  | .fault _ => none
  | .refused _ => none

/-- What R27 asks of a state, configured or not: while configured, `REVERSE_LUT` is the inverse of `ALPHABET_LUT`. Nothing is
asked of the tables of a block that is not configured. -/
def State.Loaded (s : State) : Prop :=
  s.cfgValid = true → s.reverseLut.length = 2 ^ s.params.w ∧ TablesAgree s.params.w s.alphabetLut s.reverseLut

/-- Two states that R35 calls alike: "the same `CFG_VALID`, the same `PAD_EN` and, when `CFG_VALID = 1`, the same
`ALPHABET_LUT`", in one build. -/
def State.Alike (s t : State) : Prop :=
  s.params = t.params ∧ s.cfgValid = t.cfgValid ∧ s.padEn = t.padEn ∧
    (s.cfgValid = true → s.alphabetLut = t.alphabetLut)

end Sys2Proof.Machine
end

