-- ==== Sys2Proof/Certificates/Slice0/Obligations.lean ====
section
/-! DEFINITION. The statements for the provers. Each docstring names the rules of spec/ it comes from. -/

open Sys2Proof Sys2Proof.Machine

/-! ## Command words -/

/-- R55: a word is legal exactly when `word[31:5] = 0` and the formula on `OPC` and `PAD` holds; exactly four words are;
a command with any other word is answered `ILLEGAL_COMMAND`, whatever its payload, with no error context, and writes no
state. -/
def Obligations.LegalWordsAreFourAndOthersAreAnswered : Prop :=
  (∀ w : CmdWord, legal w = true ↔
    w.toNat / 32 = 0 ∧ (w.toNat % 16 = 1 ∨ (w.toNat % 16 = 2 ∨ w.toNat % 16 = 3) ∧ w.toNat / 16 % 2 = 0)) ∧
  (∀ w : CmdWord, legal w = true ↔ w = 0x00000001 ∨ w = 0x00000011 ∨ w = 0x00000002 ∨ w = 0x00000003) ∧
  (∀ (s : State) (c : Command) (rest : List Input), s.pending = .command c :: rest → legal c.word = false →
    step s = .next ((s.setPending rest).respond ⟨.illegalCommand, .empty, none, none⟩))

/-- R51, R52, R53, R56: decoding the encoding of a well-formed instruction of any build gives it back, with every operand
at every value. -/
def Obligations.DecodeOfEncodeIsTheInstruction : Prop :=
  ∀ (p : Params) (i : Instr), i.wf p = true → decode p (encode i) = .ok i

/-- R51, R52, R53, R56: a command with a legal word has one encoding; encoding what it decodes to gives it back. -/
def Obligations.EncodeOfDecodeIsTheCommand : Prop :=
  ∀ (p : Params) (c : Command) (i : Instr), legal c.word = true → decode p c = .ok i → encode i = c

/-- Words and payloads of R52, R63 and the vectors of 95_test_vectors.md section 2.7, decoded in the default build. -/
def Obligations.WrittenOutCommandsDecode : Prop :=
  decode Params.default ⟨0b00000000000000000000000000000001, [0x41, 0x42]⟩ = .ok (.cfg false [0x41, 0x42]) ∧
  decode Params.default ⟨0b00000000000000000000000000010001, [0x41, 0x42]⟩ = .ok (.cfg true [0x41, 0x42]) ∧
  decode Params.default ⟨0b00000000000000000000000000000010, [0xFB, 0xEF]⟩ = .ok (.enc [0xFB, 0xEF]) ∧
  decode Params.default ⟨0b00000000000000000000000000000011, [0x59, 0x51]⟩ = .ok (.dec [0x59, 0x51]) ∧
  decode Params.default ⟨0x00000012, [0x41]⟩ = .ok (.illegal 0x00000012) ∧
  decode Params.default ⟨0x80000001, [0x41]⟩ = .ok (.illegal 0x80000001)

/-- R65: each pseudo-command is one `CFG` command, with the word the table gives it. -/
def Obligations.PseudoCommandsAreCfgCommands : Prop :=
  ∀ pad : Bool,
    assemble (.cfgStd pad) = assemble (.cfg pad .std64) ∧ assemble (.cfgStd pad) = encode (.cfg pad std64) ∧
    assemble (.cfgUrl pad) = assemble (.cfg pad .url64) ∧ assemble (.cfgUrl pad) = encode (.cfg pad url64) ∧
    (assemble (.cfgStd pad)).word = (if pad then 0x00000011 else 0x00000001) ∧
    (assemble (.cfgUrl pad)).word = (if pad then 0x00000011 else 0x00000001)

/-! ## One step -/

/-- R46, R50: when the oldest input is a command that decodes to `i`, the step is `exec i` in the state in which that
command is no longer pending. -/
def Obligations.StepRunsTheDecodedCommand : Prop :=
  ∀ (s : State) (c : Command) (rest : List Input) (i : Instr),
    s.pending = .command c :: rest → decode s.params c = .ok i → step s = exec i (s.setPending rest)

/-- THE MODEL'S CHOICE (log 2), with R137 ("Its state lasts until reset"): with no input pending a step changes
nothing. -/
def Obligations.StepWithoutInputChangesNothing : Prop := ∀ s : State, s.pending = [] → step s = .next s

/-- R50, R124, R127: a command that takes a step returns exactly one response, after all earlier ones, and is no longer
pending; the build is as before. -/
def Obligations.EachCommandReturnsOneResponse : Prop :=
  ∀ (s t : State) (c : Command) (rest : List Input), s.pending = .command c :: rest → step s = .next t →
    t.pending = rest ∧ t.params = s.params ∧ ∃ r, t.responses = s.responses ++ [r]

/-- R7, R9: no step changes a parameter of the build, `PAD_SYM` among them. -/
def Obligations.StepKeepsTheBuild : Prop := ∀ s t : State, step s = .next t → t.params = s.params

/-! ## Reset -/

/-- R32: after reset both flags are 0 and no entry of either table holds a value; reading an entry that holds none is a
fault; while `CFG_VALID = 0` no command reads a table: its answer and its writes are the same whatever the tables
hold. -/
def Obligations.ResetLeavesTheTablesWithoutValues : Prop :=
  (State.reset.cfgValid = false ∧ State.reset.padEn = false ∧
    (∀ i, alutRead State.reset.alphabetLut i = none) ∧ (∀ a, rlutLookup State.reset.reverseLut a = none)) ∧
  (∀ (s : State) (b : Byte), s.cfgValid = true → withinCap s.params.maxEncLen 1 = true →
    alutRead s.alphabetLut (encIdx1 b) = none → exec (.enc [b]) s = .fault .alphabetLutUnwritten) ∧
  (∀ (s : State) (a : Symbol), s.cfgValid = true → s.padEn = false → withinCap s.params.maxDecLen 1 = true →
    a < 2 ^ s.params.w → rlutLookup s.reverseLut a = none → exec (.dec [a]) s = .fault .reverseLutUnwritten) ∧
  (∀ (s : State) (i : Instr), s.cfgValid = false → i.wf s.params = true →
    ∃ r written, ∀ (alphabet : AlphabetLut) (reverse : ReverseLut),
      ∃ t, exec i { s with alphabetLut := alphabet, reverseLut := reverse } = .next t ∧
        t.responses = s.responses ++ [r] ∧
        t.elements = if r.result = .ok then written else (s.cfgValid, s.padEn, alphabet, reverse))

/-- R140: after a reset the four elements are as R32 says. -/
def Obligations.ResetInputRestoresTheResetState : Prop :=
  ∀ (s : State) (rest : List Input), s.pending = .reset :: rest →
    ∃ t, step s = .next t ∧ t.cfgValid = false ∧ t.padEn = false ∧
      (∀ i, alutRead t.alphabetLut i = none) ∧ (∀ a, rlutLookup t.reverseLut a = none)

/-- R142: a reset that arrives while a command runs abandons the command: it returns no response, and the state is the
reset state. The command is one the block takes (R49, R56). -/
def Obligations.ResetDuringACommandAbandonsIt : Prop :=
  ∀ (s : State) (c : Command) (rest : List Input), s.pending = .resetDuring c :: rest →
    Admitted s.params c →
    ∃ t, step s = .next t ∧ t.responses = s.responses ∧ t.cfgValid = false ∧ t.padEn = false ∧
      (∀ i, alutRead t.alphabetLut i = none) ∧ (∀ a, rlutLookup t.reverseLut a = none)

/-- THE MODEL'S CHOICE (log 9): a reset, between commands or during any command, one the block would not accept among
them, leaves the build, the later inputs and the responses already returned as they are; and the four elements are then
as R32 says. -/
def Obligations.ResetKeepsTheHostSide : Prop :=
  ∀ (s : State) (rest : List Input), (s.pending = .reset :: rest ∨ ∃ c, s.pending = .resetDuring c :: rest) →
    ∃ t, step s = .next t ∧ t.params = s.params ∧ t.pending = rest ∧ t.responses = s.responses ∧
      t.cfgValid = false ∧ t.padEn = false ∧
      (∀ i, alutRead t.alphabetLut i = none) ∧ (∀ a, rlutLookup t.reverseLut a = none)

/-- R141: a command never takes the block back to `CFG_VALID = 0`, and a reset always does. THE MODEL'S CHOICE
(log 9): so does one during a command that the block would not accept. -/
def Obligations.OnlyAResetUnconfigures : Prop :=
  (∀ s t : State, step s = .next t → s.cfgValid = true → t.cfgValid = false →
    ∃ rest, s.pending = .reset :: rest ∨ ∃ c, s.pending = .resetDuring c :: rest) ∧
  (∀ (s : State) (rest : List Input), (s.pending = .reset :: rest ∨ ∃ c, s.pending = .resetDuring c :: rest) →
    ∃ t, step s = .next t ∧ t.cfgValid = false)

/-! ## The invariant -/

/-- R20, R32: the reset state meets the invariant. -/
def Obligations.ResetMeetsTheInvariant : Prop := State.reset.Inv

/-- R22, R25, R27, R32: every step keeps the invariant, from every state that meets it. -/
def Obligations.StepKeepsTheInvariant : Prop := ∀ s t : State, s.Inv → step s = .next t → t.Inv

/-- R138: from every state that meets the invariant, an admitted command has a next state and one response, and no step
faults; a command gets no step only when it is not admitted. -/
def Obligations.AdmittedCommandsRespondAndNothingFaults : Prop :=
  (∀ (s : State) (c : Command) (rest : List Input), s.Inv → s.pending = .command c :: rest → Admitted s.params c →
    ∃ t r, step s = .next t ∧ t.responses = s.responses ++ [r]) ∧
  (∀ s : State, s.Inv → ∀ f, step s ≠ .fault f) ∧
  (∀ (s : State) (e : Refusal), step s = .refused e →
    ∃ c rest, s.pending = .command c :: rest ∧ ¬ Admitted s.params c)

/-- R27, with R25's distinctness: in a configured state the entry of `ALPHABET_LUT[i]` is `some i`, the entry of every
other symbol is `none`, and exactly 64 entries are `some`. -/
def Obligations.ConfiguredTablesAreInverse : Prop :=
  ∀ s : State, s.Inv → s.cfgValid = true →
    (∀ i : Index, ∃ a, alutRead s.alphabetLut i = some a ∧ rlutLookup s.reverseLut a = some (some i)) ∧
    (∀ a, a < 2 ^ s.params.w → (∀ i : Index, alutRead s.alphabetLut i ≠ some a) →
      rlutLookup s.reverseLut a = some none) ∧
    (∀ i j : Index, alutRead s.alphabetLut i = alutRead s.alphabetLut j → i = j) ∧
    ((List.range (2 ^ s.params.w)).filter
      (fun a => decide (∃ i : Index, rlutLookup s.reverseLut a = some (some i)))).length = 64

/-- R35: two states of one build with the same `CFG_VALID`, the same `PAD_EN` and, when configured, the same
`ALPHABET_LUT` give the same responses to every sequence of inputs, whatever the tables hold while they are not configured;
and `REVERSE_LUT` is a function of `ALPHABET_LUT`. -/
def Obligations.AlikeStatesAreObservedAlike : Prop :=
  (∀ (s t : State) (k : Nat), s.Loaded → t.Loaded → s.Alike t → s.pending = t.pending → s.responses = t.responses →
    observed k s = observed k t) ∧
  (∀ s t : State, s.Loaded → t.Loaded → s.Alike t → s.cfgValid = true → s.reverseLut = t.reverseLut)

/-! ## Errors -/

/-- R28: the four elements change only through a `CFG` that ends `OK` or through a reset; `ENC` and `DEC` (and an illegal
word) change nothing but the responses, whatever their result. -/
def Obligations.OnlyCfgAndResetWriteTheElements : Prop :=
  (∀ s t : State, step s = .next t → t.elements ≠ s.elements →
    (∃ rest, s.pending = .reset :: rest ∨ ∃ c, s.pending = .resetDuring c :: rest) ∨
    (∃ c rest pad, s.pending = .command c :: rest ∧ decodeWord c.word = .cfg pad ∧
      t.responses = s.responses ++ [⟨.ok, .empty, none, none⟩])) ∧
  (∀ (s t : State) (data : List Byte), exec (.enc data) s = .next t → ∃ r, t = s.respond r) ∧
  (∀ (s t : State) (text : List Symbol), exec (.dec text) s = .next t → ∃ r, t = s.respond r) ∧
  (∀ (s t : State) (word : CmdWord), exec (.illegal word) s = .next t → ∃ r, t = s.respond r)

/-- R58 and R71: a response `OK` carries no error context; any other response has no output, and the command that got it
left the four elements as they were (of a failed `CFG`, its `PAD` bit too). -/
def Obligations.ErrorsHaveNoOutputAndWriteNothing : Prop :=
  ∀ (s t : State) (c : Command) (rest : List Input) (r : Response),
    s.pending = .command c :: rest → step s = .next t → t.responses = s.responses ++ [r] →
      (r.result = .ok → r.errPos = none ∧ r.errSym = none) ∧
      (r.result ≠ .ok → r.out = .empty ∧ t.elements = s.elements)

/-- R120: the numeric codes and error kinds, and, for every response a command gets, the row of the table it fits: who
raises it, its cause, `err_pos` and `err_sym`. No code above `0x6` is returned. -/
def Obligations.ResponsesFitTheResultTable : Prop :=
  (Result.ok.code = 0x0 ∧ Result.invalidAlphabetLength.code = 0x1 ∧ Result.invalidAlphabetDuplicate.code = 0x2 ∧
    Result.invalidInputSymbol.code = 0x3 ∧ Result.invalidInputTruncatedGroup.code = 0x4 ∧
    Result.notConfigured.code = 0x5 ∧ Result.illegalCommand.code = 0x6) ∧
  (∀ r : Result, (r.kind = some .invalidAlphabet ↔ r = .invalidAlphabetLength ∨ r = .invalidAlphabetDuplicate) ∧
    (r.kind = some .invalidInput ↔ r = .invalidInputSymbol ∨ r = .invalidInputTruncatedGroup)) ∧
  (∀ (s t : State) (c : Command) (rest : List Input) (r : Response),
    s.pending = .command c :: rest → step s = .next t → t.responses = s.responses ++ [r] →
      FitsRow s c r ∧ r.result.code.toNat ≤ 6)

/-- R122: a legal `ENC` or `DEC` that the block accepts is answered `NOT_CONFIGURED` while `CFG_VALID = 0`, whatever its
payload; `CFG` never is. -/
def Obligations.UnconfiguredCommandsAreTurnedAway : Prop :=
  (∀ (s : State) (data : List Byte), s.cfgValid = false → withinCap s.params.maxEncLen data.length = true →
    exec (.enc data) s = .next (s.respond ⟨.notConfigured, .empty, none, none⟩)) ∧
  (∀ (s : State) (text : List Symbol), s.cfgValid = false → withinCap s.params.maxDecLen text.length = true →
    (∀ a ∈ text, a < 2 ^ s.params.w) →
    exec (.dec text) s = .next (s.respond ⟨.notConfigured, .empty, none, none⟩)) ∧
  (∀ (s t : State) (pad : Bool) (alphabet : List Symbol) (r : Response),
    exec (.cfg pad alphabet) s = .next t → t.responses = s.responses ++ [r] → r.result ≠ .notConfigured)

/-- R121: the meaning of an illegal word is the response `ILLEGAL_COMMAND`, in every state, and nothing else. -/
def Obligations.IllegalCommandIsAnswered : Prop :=
  ∀ (s : State) (word : CmdWord),
    exec (.illegal word) s = .next (s.respond ⟨.illegalCommand, .empty, none, none⟩)

/-- R49: a payload over its limit gets no step, and one within it is not turned away for its length. -/
def Obligations.PayloadsOverTheLimitGetNoStep : Prop :=
  ∀ s : State,
    (∀ pad alphabet, exec (.cfg pad alphabet) s = .refused .payloadOverCapacity ↔
      ∃ m, s.params.maxCfgLen = some m ∧ m < alphabet.length) ∧
    (∀ data, exec (.enc data) s = .refused .payloadOverCapacity ↔
      ∃ m, s.params.maxEncLen = some m ∧ m < data.length) ∧
    (∀ text, exec (.dec text) s = .refused .payloadOverCapacity ↔
      ∃ m, s.params.maxDecLen = some m ∧ m < text.length)

/-- R22, R143: for a block that starts unconfigured and is sent commands only, it is configured at the end of a run exactly
when some command of the run was answered `OK`. -/
def Obligations.NothingSucceedsBeforeAConfiguration : Prop :=
  ∀ (s t : State) (cs : List Command) (k : Nat), s.cfgValid = false → s.pending = cs.map .command →
    Sys2Proof.core.run k s = .next t →
      ∃ rs, t.responses = s.responses ++ rs ∧ (t.cfgValid = true ↔ ∃ r ∈ rs, r.result = .ok)

/-! ## CFG -/

/-- R68: a payload of the wrong length is answered `INVALID_ALPHABET_LENGTH` with the length received, repeated symbols or
not, and no state is written. -/
def Obligations.CfgRejectsAWrongLength : Prop :=
  ∀ (s : State) (pad : Bool) (alphabet : List Symbol),
    withinCap s.params.maxCfgLen alphabet.length = true → (∀ a ∈ alphabet, a < 2 ^ s.params.w) →
    alphabet.length ≠ 64 →
    exec (.cfg pad alphabet) s = .next (s.respond ⟨.invalidAlphabetLength, .empty, some alphabet.length, none⟩)

/-- R69: 64 symbols with two equal ones are answered `INVALID_ALPHABET_DUPLICATE` with the smallest index `j` whose symbol
equals an earlier one, and that symbol, and no state is written. -/
def Obligations.CfgReportsTheFirstRepeat : Prop :=
  ∀ (s : State) (pad : Bool) (alphabet : List Symbol),
    withinCap s.params.maxCfgLen alphabet.length = true → (∀ a ∈ alphabet, a < 2 ^ s.params.w) →
    alphabet.length = 64 → ¬ alphabet.Nodup →
    ∃ j a, alphabet[j]? = some a ∧ (∃ i, i < j ∧ alphabet[i]? = some a) ∧
      (∀ k i, i < k → k < j → alphabet[i]? ≠ alphabet[k]?) ∧
      exec (.cfg pad alphabet) s = .next (s.respond ⟨.invalidAlphabetDuplicate, .empty, some j, some a⟩)

/-- R70, R74: 64 distinct symbols are committed: `ALPHABET_LUT[i] = A[i]`, `REVERSE_LUT` is the inverse and `none`
elsewhere, `PAD_EN` is the `PAD` bit, `CFG_VALID` is 1, the response is `OK`, and nothing else changes. -/
def Obligations.CfgCommitsADistinctAlphabet : Prop :=
  ∀ (s : State) (pad : Bool) (alphabet : List Symbol),
    withinCap s.params.maxCfgLen alphabet.length = true → (∀ a ∈ alphabet, a < 2 ^ s.params.w) →
    alphabet.length = 64 → alphabet.Nodup →
    ∃ t, exec (.cfg pad alphabet) s = .next t ∧ t.cfgValid = true ∧ t.padEn = pad ∧
      (∀ i : Index, alutRead t.alphabetLut i = alphabet[i.toNat]?) ∧
      (∀ a, a < 2 ^ s.params.w → ∀ i : Index,
        rlutLookup t.reverseLut a = some (some i) ↔ alphabet[i.toNat]? = some a) ∧
      (∀ a, a < 2 ^ s.params.w → a ∉ alphabet → rlutLookup t.reverseLut a = some none) ∧
      t.responses = s.responses ++ [⟨.ok, .empty, none, none⟩] ∧ t.params = s.params ∧ t.pending = s.pending

/-- R77: of the payloads the block accepts, `CFG` takes exactly those of 64 distinct symbols, whatever the symbols are
(`PAD_SYM` among them or not, R76). -/
def Obligations.CfgAcceptsExactlyDistinctAlphabets : Prop :=
  ∀ (s : State) (pad : Bool) (alphabet : List Symbol),
    withinCap s.params.maxCfgLen alphabet.length = true → (∀ a ∈ alphabet, a < 2 ^ s.params.w) →
    ((∃ t, exec (.cfg pad alphabet) s = .next t ∧ t.responses = s.responses ++ [⟨.ok, .empty, none, none⟩]) ↔
      alphabet.length = 64 ∧ alphabet.Nodup)

/-- R34, R79: in two states of one build, whatever each holds, a `CFG` gets the same response; when it is `OK`, the four
elements after it are the same. -/
def Obligations.CfgDependsOnItsCommandAlone : Prop :=
  ∀ (s t s' : State) (pad : Bool) (alphabet : List Symbol), s.params = t.params →
    exec (.cfg pad alphabet) s = .next s' →
      ∃ t' r, exec (.cfg pad alphabet) t = .next t' ∧ s'.responses = s.responses ++ [r] ∧
        t'.responses = t.responses ++ [r] ∧ (r.result = .ok → s'.elements = t'.elements)

/-- R45: the same command in the state it left gets the same response and leaves that state as it is: for `ENC`, `DEC` and
an illegal word the state was never changed, and a `CFG` issued twice leaves what issuing it once leaves. -/
def Obligations.CommandsAreIdempotent : Prop :=
  ∀ (i : Instr) (s t : State) (r : Response), exec i s = .next t → t.responses = s.responses ++ [r] →
    (∃ u, exec i t = .next u ∧ u.responses = t.responses ++ [r] ∧ u.elements = t.elements) ∧
    ((∀ pad alphabet, i ≠ .cfg pad alphabet) → t.elements = s.elements)

/-! ## ENC -/

/-- R89: each index is the formula on naturals, so it lies in 0..63 and nothing is cut off; together the four hold the 24
bits of the group from the top down. -/
def Obligations.EncoderIndicesAreTheFormulas : Prop :=
  ∀ b1 b2 b3 : Byte,
    (encIdx1 b1).toNat = b1.toNat >>> 2 ∧
    (encIdx2 b1 b2).toNat = ((b1.toNat &&& 0x03) <<< 4) ||| (b2.toNat >>> 4) ∧
    (encIdx3 b2 b3).toNat = ((b2.toNat &&& 0x0F) <<< 2) ||| (b3.toNat >>> 6) ∧
    (encIdx4 b3).toNat = b3.toNat &&& 0x3F ∧
    (encIdx1 b1).toNat * 2 ^ 18 + (encIdx2 b1 b2).toNat * 2 ^ 12 + (encIdx3 b2 b3).toNat * 2 ^ 6 + (encIdx4 b3).toNat =
      b1.toNat * 2 ^ 16 + b2.toNat * 2 ^ 8 + b3.toNat

/-- R40: the four indices of a group are the fields of `G = (b1 << 16) | (b2 << 8) | b3` from the top down, and decode is
the mirror on `G' = (idx1 << 18) | (idx2 << 12) | (idx3 << 6) | idx4`. -/
def Obligations.GroupsArePackedFromTheTopDown : Prop :=
  (∀ b1 b2 b3 : Byte, ∀ g : BitVec 24,
    g = (b1.setWidth 24 <<< 16) ||| (b2.setWidth 24 <<< 8) ||| b3.setWidth 24 →
      encIdx1 b1 = g.extractLsb' 18 6 ∧ encIdx2 b1 b2 = g.extractLsb' 12 6 ∧
      encIdx3 b2 b3 = g.extractLsb' 6 6 ∧ encIdx4 b3 = g.extractLsb' 0 6) ∧
  (∀ i1 i2 i3 i4 : Index, ∀ g : BitVec 24,
    g = (i1.setWidth 24 <<< 18) ||| (i2.setWidth 24 <<< 12) ||| (i3.setWidth 24 <<< 6) ||| i4.setWidth 24 →
      decByte1 i1 i2 = g.extractLsb' 16 8 ∧ decByte2 i2 i3 = g.extractLsb' 8 8 ∧ decByte3 i3 i4 = g.extractLsb' 0 8)

/-- R86 to R90, R95, R96: in a configured state `ENC` answers `OK` to every accepted payload. The bits of its data symbols'
indices are the bits of the payload from the top down, then zeros; they are as many as those bits need; the symbols are the
alphabet's at those indices; and after them stand the pads, 0, 2 or 1 of them, when padding is on. -/
def Obligations.EncodingIsTheBitsSixAtATime : Prop :=
  ∀ (s : State) (data : List Byte), s.Inv → s.cfgValid = true → withinCap s.params.maxEncLen data.length = true →
    ∃ (indices : List Index) (symbols : List Symbol),
      indices.length = dataSymbols data.length ∧
      (∀ n, n < 6 * indices.length → indexBit indices n = byteBit data n) ∧
      indices.map (alutRead s.alphabetLut) = symbols.map some ∧
      exec (.enc data) s = .next (s.respond ⟨.ok, .symbols (symbols ++
        List.replicate (if s.padEn then [0, 2, 1].getD (data.length % 3) 0 else 0) s.params.padSym), none, none⟩)

/-- R91: in a configured state the empty payload encodes to the empty output, in either padding mode. -/
def Obligations.EmptyPayloadEncodesToNothing : Prop :=
  ∀ s : State, s.cfgValid = true →
    exec (.enc []) s = .next (s.respond ⟨.ok, .symbols [], none, none⟩)

/-- R92: the two length laws. -/
def Obligations.EncodingLengthLaws : Prop :=
  ∀ (s : State) (data : List Byte) (out : List Symbol),
    exec (.enc data) s = .next (s.respond ⟨.ok, .symbols out, none, none⟩) →
      (s.padEn = true → out.length = 4 * ((data.length + 2) / 3)) ∧
      (s.padEn = false → out.length = 4 * (data.length / 3) + [0, 2, 3].getD (data.length % 3) 0)

/-! ## DEC -/

/-- R102: with padding off nothing is stripped; with padding on, the text is what is left followed by pad symbols only, and
what is left does not end in one: the longest trailing run is stripped, whatever its length. -/
def Obligations.StrippingRemovesTheTrailingPadRun : Prop :=
  ∀ (s : State) (text : List Symbol),
    (s.padEn = false → s.stripped text = text) ∧
    (s.padEn = true → ∃ p, text = s.stripped text ++ List.replicate p s.params.padSym ∧
      (s.stripped text).getLast? ≠ some s.params.padSym)

/-- R111: with padding on, the answer is the same whatever number of pads trails the text, and a text of pads only decodes
to nothing. -/
def Obligations.ThePadCountIsNotChecked : Prop :=
  ∀ (s : State) (text : List Symbol) (n : Nat), s.params.Ok → s.padEn = true →
    withinCap s.params.maxDecLen (text.length + n) = true → (∀ a ∈ text, a < 2 ^ s.params.w) →
    exec (.dec (text ++ List.replicate n s.params.padSym)) s = exec (.dec text) s ∧
    (s.cfgValid = true → exec (.dec (List.replicate n s.params.padSym)) s =
      .next (s.respond ⟨.ok, .bytes [], none, none⟩))

/-- R107: each byte is the formula on naturals, so it lies in 0..255 and nothing is cut off. -/
def Obligations.DecoderBytesAreTheFormulas : Prop :=
  ∀ i1 i2 i3 i4 : Index,
    (decByte1 i1 i2).toNat = (i1.toNat <<< 2) ||| (i2.toNat >>> 4) ∧
    (decByte2 i2 i3).toNat = ((i2.toNat &&& 0x0F) <<< 4) ||| (i3.toNat >>> 2) ∧
    (decByte3 i3 i4).toNat = ((i3.toNat &&& 0x03) <<< 6) ||| i4.toNat

/-- R101 to R108: in a configured state, a text whose stripped symbols are the alphabet's at `indices`, not one more than a
multiple of four, is answered `OK`, and the bits of the bytes are the bits of the indices from the top down, as many whole
bytes as they fill. -/
def Obligations.DecodingIsTheBitsEightAtATime : Prop :=
  ∀ (s : State) (text : List Symbol) (indices : List Index), s.Inv → s.cfgValid = true →
    withinCap s.params.maxDecLen text.length = true → (∀ a ∈ text, a < 2 ^ s.params.w) →
    indices.map (alutRead s.alphabetLut) = (s.stripped text).map some → indices.length % 4 ≠ 1 →
    ∃ bytes : List Byte,
      bytes.length = 6 * indices.length / 8 ∧
      (∀ n, n < 8 * bytes.length → byteBit bytes n = indexBit indices n) ∧
      exec (.dec text) s = .next (s.respond ⟨.ok, .bytes bytes, none, none⟩)

/-- R110: the length law of a successful `DEC`, on the length after stripping. -/
def Obligations.DecodingLengthLaw : Prop :=
  ∀ (s : State) (text : List Symbol) (bytes : List Byte),
    exec (.dec text) s = .next (s.respond ⟨.ok, .bytes bytes, none, none⟩) →
      (s.stripped text).length % 4 ≠ 1 ∧
      bytes.length = 3 * ((s.stripped text).length / 4) + [0, 0, 1, 2].getD ((s.stripped text).length % 4) 0

/-- R115: a failing `DEC` reports the smallest index of the text that fails: the first symbol before the trailing pads that
is not in the alphabet, with that symbol, else the end of the stripped text when its last group has one symbol. -/
def Obligations.DecodingReportsTheFirstError : Prop :=
  ∀ (s : State) (text : List Symbol), s.Inv → s.cfgValid = true →
    withinCap s.params.maxDecLen text.length = true → (∀ a ∈ text, a < 2 ^ s.params.w) →
    (∀ q a, q < (s.stripped text).length → text[q]? = some a → rlutLookup s.reverseLut a = some none →
      (∀ q' a', q' < q → text[q']? = some a' → rlutLookup s.reverseLut a' ≠ some none) →
      exec (.dec text) s = .next (s.respond ⟨.invalidInputSymbol, .empty, some q, some a⟩)) ∧
    ((∀ q a, q < (s.stripped text).length → text[q]? = some a → rlutLookup s.reverseLut a ≠ some none) →
      (s.stripped text).length % 4 = 1 →
      exec (.dec text) s =
        .next (s.respond ⟨.invalidInputTruncatedGroup, .empty, some (s.stripped text).length, none⟩))

/-- R109: the bits a final group drops do not matter: two texts that differ in their last symbol only, in the dropped bits
of its index only, get the same answer; and when the symbols before are in the alphabet, that answer is `OK` whatever those
bits are. -/
def Obligations.DiscardedBitsAreNotChecked : Prop :=
  ∀ (s : State) (front : List Symbol) (a b : Symbol) (i j : Index), s.Inv → s.cfgValid = true →
    withinCap s.params.maxDecLen (front.length + 1) = true → (∀ c ∈ front, c < 2 ^ s.params.w) →
    rlutLookup s.reverseLut a = some (some i) → rlutLookup s.reverseLut b = some (some j) →
    (s.padEn = true → a ≠ s.params.padSym ∧ b ≠ s.params.padSym) →
    (front.length % 4 = 1 ∧ i >>> 4 = j >>> 4 ∨ front.length % 4 = 2 ∧ i >>> 2 = j >>> 2) →
    exec (.dec (front ++ [a])) s = exec (.dec (front ++ [b])) s ∧
    ((∀ c ∈ front, ∃ k, rlutLookup s.reverseLut c = some (some k)) →
      ∃ bytes, exec (.dec (front ++ [a])) s = .next (s.respond ⟨.ok, .bytes bytes, none, none⟩))

/-! ## Both directions -/

/-- R113: `DEC` of the output of `ENC` gives the bytes back when padding is off or the last data symbol is not the pad
symbol, so in particular when the alphabet does not hold it; when padding is on and the last data symbol of a non-empty
encoding is the pad symbol, `DEC` gives an error or fewer bytes. -/
def Obligations.DecodingAnEncodingGivesTheBytesBack : Prop :=
  ∀ (s : State) (data : List Byte) (out : List Symbol), s.Inv → s.cfgValid = true →
    exec (.enc data) s = .next (s.respond ⟨.ok, .symbols out, none, none⟩) →
    withinCap s.params.maxDecLen out.length = true →
    (s.padEn = false ∨ out[dataSymbols data.length - 1]? ≠ some s.params.padSym →
      exec (.dec out) s = .next (s.respond ⟨.ok, .bytes data, none, none⟩)) ∧
    ((∀ i, alutRead s.alphabetLut i ≠ some s.params.padSym) →
      exec (.dec out) s = .next (s.respond ⟨.ok, .bytes data, none, none⟩)) ∧
    (s.padEn = true → data ≠ [] → out[dataSymbols data.length - 1]? = some s.params.padSym →
      ∃ r, exec (.dec out) s = .next (s.respond r) ∧
        (r.result ≠ .ok ∨ ∃ bytes, r.out = .bytes bytes ∧ bytes.length < data.length))

/-- R114's example, as a run from reset: under `STD64` with padding on, `DEC "YR"` gives `b"a"` and `ENC b"a"` gives
`"YQ=="`. -/
def Obligations.EncodingADecodingNeedNotGiveTheTextBack : Prop :=
  observed 3 (State.reset.issue [.command (assemble (.cfgStd true)), .command (assemble (.dec (.chars ['Y', 'R']))),
      .command (assemble (.enc (.chars ['a'])))]) =
    some [⟨.ok, .empty, none, none⟩, ⟨.ok, .bytes [0x61], none, none⟩,
      ⟨.ok, .symbols [0x59, 0x51, 0x3D, 0x3D], none, none⟩]

/-- R83: `CFG 1, STD64` from reset, and the entries the rule names. -/
def Obligations.WorkedConfiguration : Prop :=
  ∃ t, step (State.reset.issue [.command ⟨0x00000011, std64⟩]) = .next t ∧
    t.responses = [⟨.ok, .empty, none, none⟩] ∧ t.cfgValid = true ∧ t.padEn = true ∧
    alutRead t.alphabetLut 0 = some 0x41 ∧ alutRead t.alphabetLut 62 = some 0x2B ∧
    alutRead t.alphabetLut 63 = some 0x2F ∧ rlutLookup t.reverseLut 0x41 = some (some 0) ∧
    rlutLookup t.reverseLut 0x2F = some (some 63) ∧ rlutLookup t.reverseLut 0x3D = some none

/-- R26, R84: a lookup that misses answers `none` whatever index bits the port shows then, and one that hits answers the
stored index. -/
def Obligations.TheIndexOfAMissIsNeverSeen : Prop :=
  ∀ (reverse : ReverseLut) (a : Symbol),
    (rlutHit (rlutAt reverse a) = false → rlutAt reverse a ≠ .unwritten → rlutLookup reverse a = some none) ∧
    (∀ i, rlutAt reverse a = .index i → rlutLookup reverse a = some (some i))
end

