-- ==== Sys2Proof/Laws/State.lean ====
section
/-! SUPPORT. One lemma for each field of the state and each update of it, true by `rfl`, so that no proof unfolds a record
update. -/

namespace Sys2Proof.Machine

variable (s : State)

@[simp] theorem State.respond_params (r : Response) : (s.respond r).params = s.params := rfl
@[simp] theorem State.respond_cfgValid (r : Response) : (s.respond r).cfgValid = s.cfgValid := rfl
@[simp] theorem State.respond_padEn (r : Response) : (s.respond r).padEn = s.padEn := rfl
@[simp] theorem State.respond_alphabetLut (r : Response) : (s.respond r).alphabetLut = s.alphabetLut := rfl
@[simp] theorem State.respond_reverseLut (r : Response) : (s.respond r).reverseLut = s.reverseLut := rfl
@[simp] theorem State.respond_pending (r : Response) : (s.respond r).pending = s.pending := rfl
@[simp] theorem State.respond_responses (r : Response) : (s.respond r).responses = s.responses ++ [r] := rfl

@[simp] theorem State.setPending_params (rest : List Input) : (s.setPending rest).params = s.params := rfl
@[simp] theorem State.setPending_cfgValid (rest : List Input) : (s.setPending rest).cfgValid = s.cfgValid := rfl
@[simp] theorem State.setPending_padEn (rest : List Input) : (s.setPending rest).padEn = s.padEn := rfl
@[simp] theorem State.setPending_alphabetLut (rest : List Input) : (s.setPending rest).alphabetLut = s.alphabetLut := rfl
@[simp] theorem State.setPending_reverseLut (rest : List Input) : (s.setPending rest).reverseLut = s.reverseLut := rfl
@[simp] theorem State.setPending_pending (rest : List Input) : (s.setPending rest).pending = rest := rfl
@[simp] theorem State.setPending_responses (rest : List Input) : (s.setPending rest).responses = s.responses := rfl

@[simp] theorem State.resetElements_params : (s.resetElements).params = s.params := rfl
@[simp] theorem State.resetElements_cfgValid : (s.resetElements).cfgValid = false := rfl
@[simp] theorem State.resetElements_padEn : (s.resetElements).padEn = false := rfl
@[simp] theorem State.resetElements_alphabetLut : (s.resetElements).alphabetLut = Vector.replicate 64 none := rfl
@[simp] theorem State.resetElements_reverseLut : (s.resetElements).reverseLut = List.replicate (2 ^ s.params.w) .unwritten := rfl
@[simp] theorem State.resetElements_pending : (s.resetElements).pending = s.pending := rfl
@[simp] theorem State.resetElements_responses : (s.resetElements).responses = s.responses := rfl

@[simp] theorem State.setFlags_params (pad : Bool) : (s.setFlags pad).params = s.params := rfl
@[simp] theorem State.setFlags_cfgValid (pad : Bool) : (s.setFlags pad).cfgValid = true := rfl
@[simp] theorem State.setFlags_padEn (pad : Bool) : (s.setFlags pad).padEn = pad := rfl
@[simp] theorem State.setFlags_alphabetLut (pad : Bool) : (s.setFlags pad).alphabetLut = s.alphabetLut := rfl
@[simp] theorem State.setFlags_reverseLut (pad : Bool) : (s.setFlags pad).reverseLut = s.reverseLut := rfl
@[simp] theorem State.setFlags_pending (pad : Bool) : (s.setFlags pad).pending = s.pending := rfl
@[simp] theorem State.setFlags_responses (pad : Bool) : (s.setFlags pad).responses = s.responses := rfl

@[simp] theorem State.loadTables_params (A : List Symbol) : (s.loadTables A).params = s.params := rfl
@[simp] theorem State.loadTables_cfgValid (A : List Symbol) : (s.loadTables A).cfgValid = s.cfgValid := rfl
@[simp] theorem State.loadTables_padEn (A : List Symbol) : (s.loadTables A).padEn = s.padEn := rfl
@[simp] theorem State.loadTables_alphabetLut (A : List Symbol) : (s.loadTables A).alphabetLut = alutFill s.alphabetLut 0 A := rfl
@[simp] theorem State.loadTables_reverseLut (A : List Symbol) : (s.loadTables A).reverseLut = rlutBuild s.params.w A := rfl
@[simp] theorem State.loadTables_pending (A : List Symbol) : (s.loadTables A).pending = s.pending := rfl
@[simp] theorem State.loadTables_responses (A : List Symbol) : (s.loadTables A).responses = s.responses := rfl

@[simp] theorem State.commit_params (pad : Bool) (A : List Symbol) : (s.commit pad A).params = s.params := rfl
@[simp] theorem State.commit_cfgValid (pad : Bool) (A : List Symbol) : (s.commit pad A).cfgValid = true := rfl
@[simp] theorem State.commit_padEn (pad : Bool) (A : List Symbol) : (s.commit pad A).padEn = pad := rfl
@[simp] theorem State.commit_alphabetLut (pad : Bool) (A : List Symbol) : (s.commit pad A).alphabetLut = alutFill s.alphabetLut 0 A := rfl
@[simp] theorem State.commit_reverseLut (pad : Bool) (A : List Symbol) : (s.commit pad A).reverseLut = rlutBuild s.params.w A := rfl
@[simp] theorem State.commit_pending (pad : Bool) (A : List Symbol) : (s.commit pad A).pending = s.pending := rfl
@[simp] theorem State.commit_responses (pad : Bool) (A : List Symbol) : (s.commit pad A).responses = s.responses := rfl

@[simp] theorem State.issue_params (inputs : List Input) : (s.issue inputs).params = s.params := rfl
@[simp] theorem State.issue_cfgValid (inputs : List Input) : (s.issue inputs).cfgValid = s.cfgValid := rfl
@[simp] theorem State.issue_padEn (inputs : List Input) : (s.issue inputs).padEn = s.padEn := rfl
@[simp] theorem State.issue_alphabetLut (inputs : List Input) : (s.issue inputs).alphabetLut = s.alphabetLut := rfl
@[simp] theorem State.issue_reverseLut (inputs : List Input) : (s.issue inputs).reverseLut = s.reverseLut := rfl
@[simp] theorem State.issue_pending (inputs : List Input) : (s.issue inputs).pending = s.pending ++ inputs := rfl
@[simp] theorem State.issue_responses (inputs : List Input) : (s.issue inputs).responses = s.responses := rfl

@[simp] theorem State.respond_elements (r : Response) : (s.respond r).elements = s.elements := rfl
@[simp] theorem State.setPending_elements (rest : List Input) : (s.setPending rest).elements = s.elements := rfl
@[simp] theorem State.setPending_setPending (a b : List Input) : (s.setPending a).setPending b = s.setPending b := rfl

@[simp] theorem okResponse_result (out : Output) : (okResponse out).result = .ok := rfl
@[simp] theorem okResponse_out (out : Output) : (okResponse out).out = out := rfl
@[simp] theorem okResponse_errPos (out : Output) : (okResponse out).errPos = none := rfl
@[simp] theorem okResponse_errSym (out : Output) : (okResponse out).errSym = none := rfl

variable (e : Result) (pos : Option Nat) (sym : Option Symbol)
@[simp] theorem errorResponse_result : (errorResponse e pos sym).result = e := rfl
@[simp] theorem errorResponse_out : (errorResponse e pos sym).out = .empty := rfl
@[simp] theorem errorResponse_errPos : (errorResponse e pos sym).errPos = pos := rfl
@[simp] theorem errorResponse_errSym : (errorResponse e pos sym).errSym = sym := rfl

/-- Two states are told apart by their responses alone once all else agrees: what `respond` adds can be read back. -/
theorem State.respond_inj (r r' : Response) : s.respond r = s.respond r' ↔ r = r' := by
  constructor
  · intro h
    have := congrArg State.responses h
    simpa using this
  · rintro rfl; rfl

end Sys2Proof.Machine
end

