-- ==== Sys2Proof/Laws/Tables.lean ====
section
/-! SUPPORT. What the ports of the two lookup tables do (R72 to R75), and that the commit of a `CFG` leaves tables that are
each other's inverse. -/

namespace Sys2Proof.Machine

/-! ## alphabet_lut -/

@[simp] theorem alutRead_alutWrite_same (lut : AlphabetLut) (i : Index) (a : Symbol) :
    alutRead (alutWrite lut i a) i = some a := by
  simp [alutRead, alutWrite]

theorem alutRead_alutWrite_other (lut : AlphabetLut) {i j : Index} (a : Symbol) (h : i ≠ j) :
    alutRead (alutWrite lut i a) j = alutRead lut j := by
  have : i.toNat ≠ j.toNat := fun e => h (BitVec.eq_of_toNat_eq e)
  simp [alutRead, alutWrite, this]

@[simp] theorem alutRead_replicate_none (i : Index) : alutRead (Vector.replicate 64 none) i = none := by
  simp [alutRead]

/-- Two alphabet tables with the same reads are the same table. -/
theorem alphabetLut_ext {a b : AlphabetLut} (h : ∀ i, alutRead a i = alutRead b i) : a = b := by
  apply Vector.ext
  intro n hn
  have := h (BitVec.ofNat 6 n)
  simpa [alutRead, Nat.mod_eq_of_lt hn] using this

/-- What the write loop of the commit leaves in each entry. -/
theorem alutRead_alutFill (A : List Symbol) : ∀ (lut : AlphabetLut) (n : Nat) (i : Index), n + A.length ≤ 64 →
    alutRead (alutFill lut n A) i =
      if n ≤ i.toNat ∧ i.toNat < n + A.length then A[i.toNat - n]? else alutRead lut i := by
  induction A with
  | nil => intro lut n i _; simp [alutFill]
  | cons a rest ih =>
    intro lut n i h
    simp only [List.length_cons] at h ⊢
    rw [alutFill, ih _ _ _ (by omega)]
    have hn : (BitVec.ofNat 6 n).toNat = n := by simp; omega
    by_cases hi : i.toNat = n
    · have : i = BitVec.ofNat 6 n := BitVec.eq_of_toNat_eq (by omega)
      subst this
      simp [hn]
    · rw [alutRead_alutWrite_other _ _ (fun e => hi (by rw [← e, hn]))]
      by_cases h1 : n + 1 ≤ i.toNat ∧ i.toNat < n + 1 + rest.length
      · have h2 : n ≤ i.toNat ∧ i.toNat < n + (rest.length + 1) := by omega
        rw [if_pos h1, if_pos h2]
        obtain ⟨k, hk⟩ : ∃ k, i.toNat - n = k + 1 := ⟨i.toNat - n - 1, by omega⟩
        rw [hk, List.getElem?_cons_succ]
        congr 1
        omega
      · rw [if_neg h1, if_neg (by omega)]

/-- After the commit, entry `i` is `A[i]`, whatever the table held before (R70). -/
theorem alutRead_alutFill_all (lut : AlphabetLut) {A : List Symbol} (h : A.length = 64) (i : Index) :
    alutRead (alutFill lut 0 A) i = A[i.toNat]? := by
  have := i.isLt
  rw [alutRead_alutFill _ _ _ _ (by omega)]
  simp
  omega

/-! ## reverse_alphabet_lut -/

@[simp] theorem rlutBuild_length (w : Nat) (A : List Symbol) : (rlutBuild w A).length = 2 ^ w := by
  simp [rlutBuild]

theorem rlutAt_rlutBuild {w : Nat} (A : List Symbol) {a : Symbol} (h : a < 2 ^ w) :
    rlutAt (rlutBuild w A) a = rlutEntry A a := by
  simp [rlutAt, rlutBuild, List.getD_eq_getElem?_getD, h]

@[simp] theorem rlutAt_replicate (n : Nat) (a : Symbol) : rlutAt (List.replicate n .unwritten) a = .unwritten := by
  simp [rlutAt, List.getD_eq_getElem?_getD, List.getElem?_replicate]
  split <;> rfl

/-- A written entry belongs to a symbol of the table. -/
theorem lt_length_of_rlutAt {lut : ReverseLut} {a : Symbol} (h : rlutAt lut a ≠ .unwritten) : a < lut.length := by
  by_contra hn
  exact h (by simp [rlutAt, List.getD_eq_getElem?_getD, List.getElem?_eq_none (Nat.le_of_not_lt hn)])

@[simp] theorem rlutLookup_index {lut : ReverseLut} {a : Symbol} {i : Index} (h : rlutAt lut a = .index i) :
    rlutLookup lut a = some (some i) := by
  simp [rlutLookup, h, rlutHit, rlutIndex]

@[simp] theorem rlutLookup_absent {lut : ReverseLut} {a : Symbol} (h : rlutAt lut a = .absent) :
    rlutLookup lut a = some none := by
  simp [rlutLookup, h, rlutHit]

@[simp] theorem rlutLookup_unwritten {lut : ReverseLut} {a : Symbol} (h : rlutAt lut a = .unwritten) :
    rlutLookup lut a = none := by
  simp [rlutLookup, h]

theorem rlutLookup_eq_index {lut : ReverseLut} {a : Symbol} {i : Index} :
    rlutLookup lut a = some (some i) ↔ rlutAt lut a = .index i := by
  cases h : rlutAt lut a <;> simp [rlutLookup, h, rlutHit, rlutIndex]

theorem rlutLookup_eq_absent {lut : ReverseLut} {a : Symbol} :
    rlutLookup lut a = some none ↔ rlutAt lut a = .absent := by
  cases h : rlutAt lut a <;> simp [rlutLookup, h, rlutHit]

/-! ## The two tables together -/

/-- The entry of a symbol of the alphabet is its place (R74). -/
theorem rlutEntry_getElem {A : List Symbol} (hn : A.Nodup) {n : Nat} (h : n < A.length) :
    rlutEntry A A[n] = .index (BitVec.ofNat 6 n) := by
  have : A.idxOf? A[n] = some n := by
    rw [List.idxOf?_eq_some_iff]
    refine ⟨h, rfl, ?_⟩
    intro j hj he
    have := (List.Nodup.getElem_inj_iff hn).mp he
    omega
  simp [rlutEntry, this]

theorem rlutEntry_of_not_mem {A : List Symbol} {a : Symbol} (h : a ∉ A) : rlutEntry A a = .absent := by
  have : A.idxOf? a = none := by simpa using h
  simp [rlutEntry, this]

/-- The tables of a successful `CFG` are each other's inverse (R27), whatever the tables before. -/
theorem tablesAgree_commit {w : Nat} {A : List Symbol} (lut : AlphabetLut) (hl : A.length = 64) (hn : A.Nodup)
    (hw : ∀ a ∈ A, a < 2 ^ w) : TablesAgree w (alutFill lut 0 A) (rlutBuild w A) := by
  constructor
  · intro i
    have hi : i.toNat < A.length := by have := i.isLt; omega
    refine ⟨A[i.toNat], ?_, ?_⟩
    · rw [alutRead_alutFill_all lut hl, List.getElem?_eq_getElem hi]
    · rw [rlutAt_rlutBuild A (hw _ (List.getElem_mem hi)), rlutEntry_getElem hn hi]
      simp
  · intro a ha hno
    rw [rlutAt_rlutBuild A ha]
    apply rlutEntry_of_not_mem
    intro hmem
    obtain ⟨n, hlt, rfl⟩ := List.getElem_of_mem hmem
    apply hno (BitVec.ofNat 6 n)
    rw [alutRead_alutFill_all lut hl]
    have : n % 64 = n := Nat.mod_eq_of_lt (by omega)
    simp [this, hlt]

section
variable {w : Nat} {alphabet : AlphabetLut} {reverse : ReverseLut} (h : TablesAgree w alphabet reverse)
include h

/-- A configured table reads at every index. -/
theorem TablesAgree.read (i : Index) : ∃ a, alutRead alphabet i = some a := by
  obtain ⟨a, ha, _⟩ := h.1 i
  exact ⟨a, ha⟩

/-- The symbol read at `i` looks up to `i`. -/
theorem TablesAgree.at_of_read {i : Index} {a : Symbol} (ha : alutRead alphabet i = some a) :
    rlutAt reverse a = .index i := by
  obtain ⟨b, hb, hr⟩ := h.1 i
  rw [ha] at hb
  obtain rfl := Option.some.inj hb
  exact hr

/-- A symbol that looks up to `i` is the one read at `i`, for symbols of the build. -/
theorem TablesAgree.read_of_at {i : Index} {a : Symbol} (ha : a < 2 ^ w) (hr : rlutAt reverse a = .index i) :
    alutRead alphabet i = some a := by
  by_contra hno
  have hx : ∀ j, alutRead alphabet j ≠ some a := by
    intro j hj
    have e := h.at_of_read hj
    rw [hr] at e
    obtain rfl := ReverseEntry.index.inj e
    exact hno hj
  rw [h.2 a ha hx] at hr
  cases hr

/-- A configured table has a written entry for every symbol of the build. -/
theorem TablesAgree.written {a : Symbol} (ha : a < 2 ^ w) :
    rlutAt reverse a = .absent ∨ ∃ i, rlutAt reverse a = .index i := by
  by_cases hx : ∃ i, alutRead alphabet i = some a
  · obtain ⟨i, hi⟩ := hx
    exact .inr ⟨i, h.at_of_read hi⟩
  · exact .inl (h.2 a ha (fun i hi => hx ⟨i, hi⟩))

end

/-- The reverse table is a function of the alphabet table (R35). -/
theorem TablesAgree.reverse_unique {w : Nat} {alphabet : AlphabetLut} {r r' : ReverseLut}
    (h : TablesAgree w alphabet r) (h' : TablesAgree w alphabet r') (hl : r.length = 2 ^ w) (hl' : r'.length = 2 ^ w) :
    r = r' := by
  apply List.ext_getElem (by rw [hl, hl'])
  intro a ha ha'
  have e : rlutAt r a = rlutAt r' a := by
    have hw : a < 2 ^ w := hl ▸ ha
    by_cases hx : ∃ i, alutRead alphabet i = some a
    · obtain ⟨i, hi⟩ := hx
      rw [h.at_of_read hi, h'.at_of_read hi]
    · have hx' : ∀ i, alutRead alphabet i ≠ some a := fun i hi => hx ⟨i, hi⟩
      rw [h.2 a hw hx', h'.2 a hw hx']
  simpa [rlutAt, List.getD_eq_getElem?_getD, ha, ha'] using e

end Sys2Proof.Machine
end

