-- ==== Sys2Proof/Laws/Commands.lean ====
section
/-! SUPPORT. What each meaning and one step can answer, said once: for each, the cases of its outcome with their guards. -/

namespace Sys2Proof.Machine

/-! ## Payloads -/

theorem refuseSymbols_eq_none {p : Params} {cap : Option Nat} {A : List Symbol} :
    refuseSymbols p cap A = none ↔ withinCap cap A.length = true ∧ ∀ a ∈ A, a < 2 ^ p.w := by
  unfold refuseSymbols
  by_cases h1 : withinCap cap A.length = true <;> by_cases h2 : A.all (symbolFits p) = true <;>
    simp_all [symbolFits]

theorem refuseSymbols_eq_some {p : Params} {cap : Option Nat} {A : List Symbol} {r : Refusal}
    (h : refuseSymbols p cap A = some r) :
    (withinCap cap A.length = false ∧ r = .payloadOverCapacity) ∨
    (withinCap cap A.length = true ∧ A.all (symbolFits p) = false ∧ r = .symbolTooWide) := by
  unfold refuseSymbols at h
  cases h1 : withinCap cap A.length <;> cases h2 : A.all (symbolFits p) <;> simp_all

theorem refuseBytes_eq_none {cap : Option Nat} {D : List Byte} :
    refuseBytes cap D = none ↔ withinCap cap D.length = true := by
  unfold refuseBytes
  cases h : withinCap cap D.length <;> simp

theorem refuseBytes_eq_some {cap : Option Nat} {D : List Byte} {r : Refusal} (h : refuseBytes cap D = some r) :
    withinCap cap D.length = false ∧ r = .payloadOverCapacity := by
  unfold refuseBytes at h
  cases h1 : withinCap cap D.length <;> simp_all

/-- A well-formed instruction is one whose payload the block accepts. -/
theorem wf_cfg {p : Params} {pad : Bool} {A : List Symbol} :
    (Instr.cfg pad A).wf p = true ↔ refuseSymbols p p.maxCfgLen A = none := by
  simp [Instr.wf, refuseSymbols_eq_none, symbolFits]

theorem wf_enc {p : Params} {D : List Byte} : (Instr.enc D).wf p = true ↔ refuseBytes p.maxEncLen D = none := by
  simp [Instr.wf, refuseBytes_eq_none]

theorem wf_dec {p : Params} {T : List Symbol} :
    (Instr.dec T).wf p = true ↔ refuseSymbols p p.maxDecLen T = none := by
  simp [Instr.wf, refuseSymbols_eq_none, symbolFits]

/-! ## CFG -/

/-- All that `CFG` can answer on a payload the block accepts (R81). -/
theorem execCfg_cases {pad : Bool} {A : List Symbol} {s : State} (h : refuseSymbols s.params s.params.maxCfgLen A = none) :
    (A.length ≠ 64 ∧ execCfg pad A s = raise s .invalidAlphabetLength (some A.length) none) ∨
    (∃ j a, A.length = 64 ∧ firstRepeat A = some (j, a) ∧
      execCfg pad A s = raise s .invalidAlphabetDuplicate (some j) (some a)) ∨
    (A.length = 64 ∧ firstRepeat A = none ∧ execCfg pad A s = complete (s.commit pad A) .empty) := by
  unfold execCfg
  rw [h]
  by_cases hl : A.length = 64
  · cases hr : firstRepeat A with
    | none => exact .inr (.inr ⟨hl, rfl, by simp [hl]⟩)
    | some ja => exact .inr (.inl ⟨ja.1, ja.2, hl, rfl, by simp [hl]⟩)
  · exact .inl ⟨hl, by simp [hl]⟩

theorem execCfg_refused {pad : Bool} {A : List Symbol} {s : State} {r : Refusal}
    (h : refuseSymbols s.params s.params.maxCfgLen A = some r) : execCfg pad A s = .refused r := by
  simp [execCfg, h]

/-- The scan of R69 from index `j` on, `seen` being the symbols before it. -/
theorem firstRepeatFrom_some {j : Nat} {seen rest : List Symbol} {k : Nat} {a : Symbol}
    (h : firstRepeatFrom j seen rest = some (k, a)) :
    ∃ n, k = j + n ∧ rest[n]? = some a ∧ (a ∈ seen ∨ a ∈ rest.take n) ∧
      (∀ m b, m < n → rest[m]? = some b → b ∉ seen ∧ b ∉ rest.take m) := by
  induction rest generalizing j seen with
  | nil => simp [firstRepeatFrom] at h
  | cons x rest ih =>
    rw [firstRepeatFrom] at h
    split at h
    · rename_i hx
      obtain ⟨rfl, rfl⟩ := Prod.mk.inj (Option.some.inj h)
      exact ⟨0, rfl, rfl, .inl hx, by simp⟩
    · rename_i hx
      obtain ⟨n, rfl, hn, hmem, hbefore⟩ := ih h
      refine ⟨n + 1, by omega, by simpa using hn, ?_, ?_⟩
      · simp only [List.mem_cons, List.take_succ_cons] at hmem ⊢
        tauto
      · intro m b hm hb
        cases m with
        | zero => simp only [List.getElem?_cons_zero, Option.some.injEq] at hb; subst hb; simp [hx]
        | succ m =>
          simp only [List.getElem?_cons_succ] at hb
          have := hbefore m b (by omega) hb
          simp only [List.mem_cons, List.take_succ_cons] at this ⊢
          tauto

theorem firstRepeatFrom_none {j : Nat} {seen rest : List Symbol} :
    firstRepeatFrom j seen rest = none ↔ rest.Nodup ∧ ∀ a ∈ rest, a ∉ seen := by
  induction rest generalizing j seen with
  | nil => simp [firstRepeatFrom]
  | cons x rest ih =>
    rw [firstRepeatFrom]
    split
    · rename_i hx
      simp [hx]
    · rename_i hx
      rw [ih]
      simp only [List.nodup_cons, List.mem_cons, forall_eq_or_imp, not_or]
      constructor
      · rintro ⟨hn, hs⟩
        exact ⟨⟨fun hm => (hs x hm).1 rfl, hn⟩, hx, fun a ha => (hs a ha).2⟩
      · rintro ⟨⟨hm, hn⟩, -, hs⟩
        exact ⟨hn, fun a ha => ⟨fun e => hm (e ▸ ha), hs a ha⟩⟩

/-- No symbol repeats exactly when the entries are pairwise distinct. -/
theorem firstRepeat_none {A : List Symbol} : firstRepeat A = none ↔ A.Nodup := by
  simp [firstRepeat, firstRepeatFrom_none]

/-- What the scan reports: `A[j]` repeats an earlier symbol, and no earlier index does. -/
theorem firstRepeat_some {A : List Symbol} {j : Nat} {a : Symbol} (h : firstRepeat A = some (j, a)) :
    A[j]? = some a ∧ a ∈ A.take j ∧ ∀ m b, m < j → A[m]? = some b → b ∉ A.take m := by
  obtain ⟨n, rfl, hn, hm, hb⟩ := firstRepeatFrom_some h
  simp only [List.not_mem_nil, false_or, not_false_eq_true, true_and, Nat.zero_add] at *
  exact ⟨hn, hm, hb⟩

/-! ## ENC -/

/-- All that `ENC` can answer on a payload the block accepts. -/
theorem execEnc_cases {D : List Byte} {s : State} (h : refuseBytes s.params.maxEncLen D = none) :
    (s.cfgValid = false ∧ execEnc D s = raise s .notConfigured none none) ∨
    (∃ out, s.cfgValid = true ∧ encText s.alphabetLut s.params.padSym s.padEn D = some out ∧
      execEnc D s = complete s (.symbols out)) ∨
    (s.cfgValid = true ∧ encText s.alphabetLut s.params.padSym s.padEn D = none ∧
      execEnc D s = .fault .alphabetLutUnwritten) := by
  unfold execEnc
  rw [h]
  cases hv : s.cfgValid
  · exact .inl ⟨rfl, by simp⟩
  · cases ht : encText s.alphabetLut s.params.padSym s.padEn D with
    | none => exact .inr (.inr ⟨rfl, rfl, by simp⟩)
    | some out => exact .inr (.inl ⟨out, rfl, rfl, by simp⟩)

theorem execEnc_refused {D : List Byte} {s : State} {r : Refusal} (h : refuseBytes s.params.maxEncLen D = some r) :
    execEnc D s = .refused r := by
  simp [execEnc, h]

/-! ## DEC -/

/-- All that `DEC` can answer on a payload the block accepts. -/
theorem execDec_cases {T : List Symbol} {s : State} (h : refuseSymbols s.params s.params.maxDecLen T = none) :
    (s.cfgValid = false ∧ execDec T s = raise s .notConfigured none none) ∨
    (∃ out, s.cfgValid = true ∧ decText s.reverseLut 0 (stripPads s.params.padSym s.padEn T) = .ok out ∧
      execDec T s = complete s (.bytes out)) ∨
    (∃ q a, s.cfgValid = true ∧
      decText s.reverseLut 0 (stripPads s.params.padSym s.padEn T) = .error (.symbol q a) ∧
      execDec T s = raise s .invalidInputSymbol (some q) (some a)) ∨
    (∃ m, s.cfgValid = true ∧
      decText s.reverseLut 0 (stripPads s.params.padSym s.padEn T) = .error (.truncated m) ∧
      execDec T s = raise s .invalidInputTruncatedGroup (some m) none) ∨
    (s.cfgValid = true ∧ decText s.reverseLut 0 (stripPads s.params.padSym s.padEn T) = .error .unwritten ∧
      execDec T s = .fault .reverseLutUnwritten) := by
  unfold execDec
  rw [h]
  cases hv : s.cfgValid
  · exact .inl ⟨rfl, by simp⟩
  · right
    cases ht : decText s.reverseLut 0 (stripPads s.params.padSym s.padEn T) with
    | ok out => exact .inl ⟨out, rfl, rfl, by simp⟩
    | error e =>
      cases e with
      | symbol q a => exact .inr (.inl ⟨q, a, rfl, rfl, by simp⟩)
      | truncated m => exact .inr (.inr (.inl ⟨m, rfl, rfl, by simp⟩))
      | unwritten => exact .inr (.inr (.inr ⟨rfl, rfl, by simp⟩))

theorem execDec_refused {T : List Symbol} {s : State} {r : Refusal}
    (h : refuseSymbols s.params s.params.maxDecLen T = some r) : execDec T s = .refused r := by
  simp [execDec, h]

/-! ## All four -/

/-- What a command's next state is: the same state with one more response, or, for a `CFG` that completed, the committed
state with that response. -/
theorem exec_next_cases {i : Instr} {s t : State} (h : exec i s = .next t) :
    (∃ pad A, i = .cfg pad A ∧ A.length = 64 ∧ A.Nodup ∧ (∀ a ∈ A, a < 2 ^ s.params.w) ∧
      t = (s.commit pad A).respond (okResponse .empty)) ∨
    (∃ r, t = s.respond r) := by
  cases i with
  | cfg pad A =>
    simp only [exec] at h
    cases hr : refuseSymbols s.params s.params.maxCfgLen A with
    | some r => rw [execCfg_refused hr] at h; cases h
    | none =>
      obtain ⟨-, e⟩ | ⟨j, a, -, -, e⟩ | ⟨hl, hn, e⟩ := execCfg_cases (pad := pad) hr <;> rw [e] at h
      · exact .inr ⟨_, (Host.Outcome.next.inj h).symm⟩
      · exact .inr ⟨_, (Host.Outcome.next.inj h).symm⟩
      · exact .inl ⟨pad, A, rfl, hl, firstRepeat_none.mp hn, (refuseSymbols_eq_none.mp hr).2,
          (Host.Outcome.next.inj h).symm⟩
  | enc D =>
    right
    simp only [exec] at h
    cases hr : refuseBytes s.params.maxEncLen D with
    | some r => rw [execEnc_refused hr] at h; cases h
    | none =>
      obtain ⟨-, e⟩ | ⟨out, -, -, e⟩ | ⟨-, -, e⟩ := execEnc_cases hr <;> rw [e] at h
      · exact ⟨_, (Host.Outcome.next.inj h).symm⟩
      · exact ⟨_, (Host.Outcome.next.inj h).symm⟩
      · cases h
  | dec T =>
    right
    simp only [exec] at h
    cases hr : refuseSymbols s.params s.params.maxDecLen T with
    | some r => rw [execDec_refused hr] at h; cases h
    | none =>
      obtain ⟨-, e⟩ | ⟨out, -, -, e⟩ | ⟨q, a, -, -, e⟩ | ⟨m, -, -, e⟩ | ⟨-, -, e⟩ := execDec_cases hr <;> rw [e] at h
      · exact ⟨_, (Host.Outcome.next.inj h).symm⟩
      · exact ⟨_, (Host.Outcome.next.inj h).symm⟩
      · exact ⟨_, (Host.Outcome.next.inj h).symm⟩
      · exact ⟨_, (Host.Outcome.next.inj h).symm⟩
      · cases h
  | illegal w => exact .inr ⟨_, (Host.Outcome.next.inj h).symm⟩

/-! ## One step -/

theorem step_idle {s : State} (h : s.pending = []) : step s = .next s := by
  simp [step, h, idle]

theorem step_reset {s : State} {rest : List Input} (h : s.pending = .reset :: rest) :
    step s = .next (s.setPending rest).resetElements := by
  simp [step, h, takeReset]

theorem step_resetDuring {s : State} {c : Command} {rest : List Input} (h : s.pending = .resetDuring c :: rest) :
    step s = .next (s.setPending rest).resetElements := by
  simp [step, h, abandonCommand]

theorem step_command {s : State} {c : Command} {rest : List Input} {i : Instr} (h : s.pending = .command c :: rest)
    (hd : decode s.params c = .ok i) : step s = exec i (s.setPending rest) := by
  simp [step, h, hd]

theorem step_rejected {s : State} {c : Command} {rest : List Input} {e : DecodeError}
    (h : s.pending = .command c :: rest) (hd : decode s.params c = .error e) : step s = rejectPayload e := by
  simp [step, h, hd]

/-- All that a step to a next state can be. -/
theorem step_next_cases {s t : State} (h : step s = .next t) :
    (s.pending = [] ∧ t = s) ∨
    (∃ rest, (s.pending = .reset :: rest ∨ ∃ c, s.pending = .resetDuring c :: rest) ∧
      t = (s.setPending rest).resetElements) ∨
    (∃ c rest i, s.pending = .command c :: rest ∧ decode s.params c = .ok i ∧
      exec i (s.setPending rest) = .next t) := by
  cases hp : s.pending with
  | nil => rw [step_idle hp] at h; exact .inl ⟨rfl, (Host.Outcome.next.inj h).symm⟩
  | cons x rest =>
    right
    cases x with
    | reset => rw [step_reset hp] at h; exact .inl ⟨rest, .inl rfl, (Host.Outcome.next.inj h).symm⟩
    | resetDuring c => rw [step_resetDuring hp] at h; exact .inl ⟨rest, .inr ⟨c, rfl⟩, (Host.Outcome.next.inj h).symm⟩
    | command c =>
      right
      cases hd : decode s.params c with
      | ok i => exact ⟨c, rest, i, rfl, hd, step_command hp hd ▸ h⟩
      | error e => rw [step_rejected hp hd] at h; cases e <;> cases h

end Sys2Proof.Machine
end

