-- ==== Sys2Proof/Laws/Codec.lean ====
section
/-! SUPPORT. The two directions of the codec, group by group: `ENC` over its index sequence, and `DEC` as all its lookups
first and its bytes after. -/

namespace Sys2Proof.Machine

/-! ## ENC -/

/-- The data indices of a payload, group by group (R88, R89). -/
def encIndices : List Byte → List Index
  | [] => []
  | [b1] => [encIdx1 b1, encIdx2 b1 0]
  | [b1, b2] => [encIdx1 b1, encIdx2 b1 b2, encIdx3 b2 0]
  | b1 :: b2 :: b3 :: rest => [encIdx1 b1, encIdx2 b1 b2, encIdx3 b2 b3, encIdx4 b3] ++ encIndices rest

/-- How many pads stand after `n` bytes' data symbols when padding is on (R96). -/
def padCount (pad : Bool) (n : Nat) : Nat := if pad then [0, 2, 1].getD (n % 3) 0 else 0

theorem encIndices_length : ∀ D, (encIndices D).length = dataSymbols D.length
  | [] => rfl
  | [_] => by simp [encIndices, dataSymbols]
  | [_, _] => by simp [encIndices, dataSymbols]
  | b1 :: b2 :: b3 :: rest => by
    simp only [encIndices, List.length_append, List.length_cons, List.length_nil, encIndices_length rest, dataSymbols]
    omega

/-- A table that reads everywhere reads any index sequence. -/
theorem reads_all {lut : AlphabetLut} (h : ∀ i, ∃ a, alutRead lut i = some a) (indices : List Index) :
    ∃ symbols : List Symbol, indices.map (alutRead lut) = symbols.map some := by
  induction indices with
  | nil => exact ⟨[], rfl⟩
  | cons i rest ih =>
    obtain ⟨a, ha⟩ := h i
    obtain ⟨out, hout⟩ := ih
    exact ⟨a :: out, by simp [ha, hout]⟩

/-- `ENC` emits the symbols at its data indices and then the pads (R90), on a table that reads everywhere. -/
theorem encText_eq {lut : AlphabetLut} (h : ∀ i, ∃ a, alutRead lut i = some a) (padSym : Symbol) (pad : Bool) :
    ∀ (D : List Byte) (symbols : List Symbol), (encIndices D).map (alutRead lut) = symbols.map some →
      encText lut padSym pad D = some (symbols ++ List.replicate (padCount pad D.length) padSym)
  | [], symbols, hs => by
    have : symbols = [] := by simpa [encIndices] using hs.symm
    subst this
    cases pad <;> rfl
  | [b1], symbols, hs => by
    obtain ⟨a1, h1⟩ := h (encIdx1 b1)
    obtain ⟨a2, h2⟩ := h (encIdx2 b1 0)
    obtain rfl : symbols = [a1, a2] := by
      simp only [encIndices, List.map_cons, List.map_nil, h1, h2] at hs
      exact (List.map_injective_iff.mpr (Option.some_injective _) (by simpa using hs)).symm
    simp only [encText, encGroup, h1, h2, encLane]
    cases pad <;> simp [padCount]
  | [b1, b2], symbols, hs => by
    obtain ⟨a1, h1⟩ := h (encIdx1 b1)
    obtain ⟨a2, h2⟩ := h (encIdx2 b1 b2)
    obtain ⟨a3, h3⟩ := h (encIdx3 b2 0)
    obtain rfl : symbols = [a1, a2, a3] := by
      simp only [encIndices, List.map_cons, List.map_nil, h1, h2, h3] at hs
      exact (List.map_injective_iff.mpr (Option.some_injective _) (by simpa using hs)).symm
    simp only [encText, encGroup, h1, h2, h3, encLane]
    cases pad <;> simp [padCount]
  | b1 :: b2 :: b3 :: rest, symbols, hs => by
    obtain ⟨a1, h1⟩ := h (encIdx1 b1)
    obtain ⟨a2, h2⟩ := h (encIdx2 b1 b2)
    obtain ⟨a3, h3⟩ := h (encIdx3 b2 b3)
    obtain ⟨a4, h4⟩ := h (encIdx4 b3)
    obtain ⟨out, hout⟩ := reads_all h (encIndices rest)
    obtain rfl : symbols = [a1, a2, a3, a4] ++ out := by
      simp only [encIndices, List.map_cons, List.map_nil, List.map_append, h1, h2, h3, h4, hout] at hs
      exact (List.map_injective_iff.mpr (Option.some_injective _) (by simpa using hs)).symm
    have hp : padCount pad (b1 :: b2 :: b3 :: rest).length = padCount pad rest.length := by
      have e : (rest.length + 1 + 1 + 1) % 3 = rest.length % 3 := by omega
      simp [padCount, e]
    rw [encText, encText_eq h padSym pad rest out hout, hp]
    simp [encGroup, h1, h2, h3, h4, encLane]

/-! ## DEC -/

/-- All the lookups of a text from index `q` on, left to right, up to the first that fails (R105). -/
def lookups (lut : ReverseLut) (q : Nat) : List Symbol → Except DecFail (List Index)
  | [] => .ok []
  | a :: rest => do
    let i ← lookupAt lut q a
    let is ← lookups lut (q + 1) rest
    .ok (i :: is)

/-- The bytes of an index sequence, group by group (R107, R108); a last group of one gives none. -/
def bytesOf : List Index → List Byte
  | i1 :: i2 :: i3 :: i4 :: rest => decGroup i1 i2 i3 i4 4 ++ bytesOf rest
  | [i1, i2, i3] => decGroup i1 i2 i3 0 3
  | [i1, i2] => decGroup i1 i2 0 0 2
  | [_] => []
  | [] => []

theorem lookups_length {lut : ReverseLut} {q : Nat} {S : List Symbol} {is : List Index}
    (h : lookups lut q S = .ok is) : is.length = S.length := by
  induction S generalizing q is with
  | nil => cases h; rfl
  | cons a rest ih =>
    simp only [lookups, bind, Except.bind] at h
    cases h1 : lookupAt lut q a <;> simp only [h1] at h
    · cases h
    cases h2 : lookups lut (q + 1) rest <;> simp only [h2] at h <;> cases h
    simp [ih h2]

/-- The work on a text is its lookups, then the test for a one-symbol group, then its bytes: the order of R101 group by
group makes no difference to which error comes first. -/
theorem decText_eq (lut : ReverseLut) : ∀ (q : Nat) (S : List Symbol),
    decText lut q S = match lookups lut q S with
      | .error e => .error e
      | .ok is => if S.length % 4 = 1 then .error (.truncated (q + S.length)) else .ok (bytesOf is)
  | q, [] => rfl
  | q, [a1] => by
    simp only [decText, lookups, bind, Except.bind]
    cases lookupAt lut q a1 <;> simp
  | q, [a1, a2] => by
    simp only [decText, lookups, bind, Except.bind]
    cases lookupAt lut q a1 <;> cases lookupAt lut (q + 1) a2 <;> simp [bytesOf]
  | q, [a1, a2, a3] => by
    simp only [decText, lookups, bind, Except.bind]
    cases lookupAt lut q a1 <;> cases lookupAt lut (q + 1) a2 <;> cases lookupAt lut (q + 1 + 1) a3 <;> simp [bytesOf]
  | q, a1 :: a2 :: a3 :: a4 :: rest => by
    have e : (rest.length + 1 + 1 + 1 + 1) % 4 = rest.length % 4 := by omega
    simp only [decText, lookups, bind, Except.bind, decText_eq lut (q + 4) rest, List.length_cons, e]
    cases lookupAt lut q a1 <;> cases lookupAt lut (q + 1) a2 <;> cases lookupAt lut (q + 1 + 1) a3 <;>
      cases lookupAt lut (q + 1 + 1 + 1) a4 <;> simp
    cases lookups lut (q + 4) rest <;> simp
    by_cases h : rest.length % 4 = 1 <;> simp [h, bytesOf]
    omega

/-- Symbols read from the alphabet table look up to where they were read. -/
theorem lookups_of_reads {w : Nat} {alphabet : AlphabetLut} {reverse : ReverseLut} (h : TablesAgree w alphabet reverse)
    {S : List Symbol} : ∀ {q : Nat} {indices : List Index}, indices.map (alutRead alphabet) = S.map some →
      lookups reverse q S = .ok indices := by
  induction S with
  | nil => intro q indices hi; cases indices <;> simp at hi; rfl
  | cons a rest ih =>
    intro q indices hi
    cases indices with
    | nil => simp at hi
    | cons i is =>
      simp only [List.map_cons, List.cons.injEq] at hi
      simp [lookups, lookupAt, rlutLookup_index (h.at_of_read hi.1), bind, Except.bind, ih (q := q + 1) hi.2]

/-- The lookups end at the first symbol that is not in the alphabet. -/
theorem lookups_error {lut : ReverseLut} {S : List Symbol} : ∀ {q n : Nat} {a : Symbol}, S[n]? = some a →
    rlutLookup lut a = some none → (∀ m b, m < n → S[m]? = some b → ∃ i, rlutLookup lut b = some (some i)) →
      lookups lut q S = .error (.symbol (q + n) a) := by
  induction S with
  | nil => intro q n a h; simp at h
  | cons x rest ih =>
    intro q n a h hl hb
    cases n with
    | zero =>
      simp only [List.getElem?_cons_zero, Option.some.injEq] at h
      subst h
      simp [lookups, lookupAt, hl, bind, Except.bind]
    | succ n =>
      obtain ⟨i, hi⟩ := hb 0 x (by omega) (by simp)
      have := ih (q := q + 1) (n := n) (a := a) (by simpa using h) hl
        (fun m b hm hb' => hb (m + 1) b (by omega) (by simpa using hb'))
      simp only [lookups, lookupAt, hi, bind, Except.bind, this, Except.error.injEq, DecFail.symbol.injEq, and_true]
      omega

/-- What an error of the lookups says: the first symbol that is not in the alphabet, or an unwritten entry. -/
theorem lookups_error_cases {lut : ReverseLut} {S : List Symbol} {q : Nat} {e : DecFail}
    (h : lookups lut q S = .error e) :
    e = .unwritten ∨ ∃ n a, e = .symbol (q + n) a ∧ S[n]? = some a ∧ rlutLookup lut a = some none := by
  induction S generalizing q with
  | nil => cases h
  | cons x rest ih =>
    simp only [lookups, bind, Except.bind] at h
    cases hx : rlutLookup lut x with
    | none => simp only [lookupAt, hx, Except.error.injEq] at h; exact .inl h.symm
    | some o =>
      cases o with
      | none => simp only [lookupAt, hx, Except.error.injEq] at h; exact .inr ⟨0, x, h.symm, rfl, hx⟩
      | some i =>
        simp only [lookupAt, hx] at h
        cases hr : lookups lut (q + 1) rest with
        | ok is => simp [hr] at h
        | error e' =>
          simp only [hr, Except.error.injEq] at h
          subst h
          obtain h1 | ⟨n, a, h1, h2, h3⟩ := ih hr
          · exact .inl h1
          · exact .inr ⟨n + 1, a, by rw [h1]; congr 1; omega, by simpa using h2, h3⟩

/-- On tables that agree, symbols of the build never read an unwritten entry. -/
theorem lookups_written {w : Nat} {alphabet : AlphabetLut} {reverse : ReverseLut} (h : TablesAgree w alphabet reverse)
    {S : List Symbol} (hS : ∀ a ∈ S, a < 2 ^ w) {q : Nat} : lookups reverse q S ≠ .error .unwritten := by
  induction S generalizing q with
  | nil => intro e; cases e
  | cons a rest ih =>
    intro e
    have := ih (fun b hb => hS b (by simp [hb])) (q := q + 1)
    obtain hw | ⟨i, hw⟩ := h.written (hS a (by simp))
    · simp [lookups, lookupAt, rlutLookup_absent hw, bind, Except.bind] at e
    · simp only [lookups, lookupAt, rlutLookup_index hw, bind, Except.bind] at e
      cases hh : lookups reverse (q + 1) rest <;> simp_all

theorem decText_written {w : Nat} {alphabet : AlphabetLut} {reverse : ReverseLut} (h : TablesAgree w alphabet reverse)
    {S : List Symbol} (hS : ∀ a ∈ S, a < 2 ^ w) {q : Nat} : decText reverse q S ≠ .error .unwritten := by
  have := lookups_written h hS (q := q)
  rw [decText_eq]
  cases hh : lookups reverse q S with
  | error e => simp_all
  | ok is => simp only; split <;> simp

theorem bytesOf_length : ∀ is : List Index, is.length % 4 ≠ 1 → (bytesOf is).length = 6 * is.length / 8
  | [], _ => rfl
  | [_], h => by simp at h
  | [_, _], _ => by simp [bytesOf, decGroup]
  | [_, _, _], _ => by simp [bytesOf, decGroup]
  | i1 :: i2 :: i3 :: i4 :: rest, h => by
    have := bytesOf_length rest (by simp only [List.length_cons] at h; omega)
    simp only [bytesOf, decGroup, List.length_append, List.length_cons, this]
    simp
    omega

/-- The bit split of decode undoes that of encode (R40). -/
theorem bytesOf_encIndices : ∀ D, bytesOf (encIndices D) = D
  | [] => rfl
  | [b1] => by
    simp only [encIndices, bytesOf, decGroup]
    simp
    apply BitVec.eq_of_getLsbD_eq; intro k hk; interval_cases k <;> simp [decByte1, encIdx1, encIdx2]
  | [b1, b2] => by
    simp only [encIndices, bytesOf, decGroup]
    simp
    constructor <;> (apply BitVec.eq_of_getLsbD_eq; intro k hk; interval_cases k <;>
      simp [decByte1, decByte2, encIdx1, encIdx2, encIdx3])
  | b1 :: b2 :: b3 :: rest => by
    simp only [encIndices, bytesOf, decGroup, List.cons_append, List.nil_append, bytesOf_encIndices rest]
    simp
    refine ⟨?_, ?_, ?_⟩ <;> (apply BitVec.eq_of_getLsbD_eq; intro k hk; interval_cases k <;>
      simp [decByte1, decByte2, decByte3, encIdx1, encIdx2, encIdx3, encIdx4])

/-- Stripping keeps the front of the text. -/
theorem stripPads_eq_take (padSym : Symbol) (padEn : Bool) (text : List Symbol) :
    ∃ m, m ≤ text.length ∧ stripPads padSym padEn text = text.take m ∧
      (stripPads padSym padEn text).length = m := by
  refine ⟨text.length - (if padEn then padRun padSym text else 0), by omega, rfl, ?_⟩
  simp [stripPads]

theorem stripPads_off (padSym : Symbol) (text : List Symbol) : stripPads padSym false text = text := by
  simp [stripPads]

/-- A text is stripped to `front` when only pads follow it and it does not end in one. -/
theorem stripPads_unique {padSym : Symbol} {front : List Symbol} (n : Nat) (h : front.getLast? ≠ some padSym) :
    stripPads padSym true (front ++ List.replicate n padSym) = front := by
  have : padRun padSym (front ++ List.replicate n padSym) = n := by
    unfold padRun
    rw [List.reverse_append, List.reverse_replicate, List.takeWhile_append_of_pos (by simp)]
    cases hS : front.reverse with
    | nil => simp
    | cons a r =>
      have : front.getLast? = some a := by rw [← List.head?_reverse, hS]; rfl
      rw [this] at h
      simp only [ne_eq, Option.some.injEq] at h
      simp [h]
  simp [stripPads, this]

/-- Every symbol of the stripped text is one of the text. -/
theorem mem_of_mem_stripPads {padSym : Symbol} {padEn : Bool} {text : List Symbol} {a : Symbol}
    (h : a ∈ stripPads padSym padEn text) : a ∈ text := List.mem_of_mem_take h

end Sys2Proof.Machine
end

