-- ==== Sys2Proof/Laws/Words.lean ====
section
/-! SUPPORT. The fields of a command word as numbers, and the words the encoder builds. -/

namespace Sys2Proof

theorem rsvField_eq_zero (w : CmdWord) : rsvField w = 0 ↔ w.toNat / 32 = 0 := by
  rw [← BitVec.toNat_inj]
  simp [rsvField, Nat.shiftRight_eq_div_pow]
  omega

theorem opcField_eq (w : CmdWord) (k : BitVec 4) : opcField w = k ↔ w.toNat % 16 = k.toNat := by
  rw [← BitVec.toNat_inj]
  simp [opcField]

theorem padField_eq (w : CmdWord) : padField w = (w.toNat / 16 % 2 == 1) := by
  simp [padField, BitVec.getLsbD, Nat.testBit, Nat.shiftRight_eq_div_pow, Nat.one_and_eq_mod_two]

/-- `legal` as the proposition R55 writes. -/
theorem legal_iff (w : CmdWord) : legal w = true ↔
    rsvField w = 0 ∧ (opcField w = 1 ∨ (opcField w = 2 ∨ opcField w = 3) ∧ padField w = false) := by
  simp [legal]

/-- A word asks for nothing the block does exactly when it is illegal. -/
theorem decodeWord_eq_illegal (w : CmdWord) : decodeWord w = .illegal ↔ legal w = false := by
  unfold decodeWord legal
  by_cases h1 : rsvField w = 0 <;> by_cases h2 : opcField w = 1 <;> by_cases h3 : opcField w = 2 <;>
    by_cases h4 : opcField w = 3 <;> cases h5 : padField w <;> simp_all

@[simp] theorem decodeWord_cfgWord (pad : Bool) : decodeWord (cmdWord 1#4 pad) = .cfg pad := by cases pad <;> decide
@[simp] theorem decodeWord_encWord : decodeWord (cmdWord 2#4 false) = .enc := by decide
@[simp] theorem decodeWord_decWord : decodeWord (cmdWord 3#4 false) = .dec := by decide

/-- What `decode` answers, by what the word asks for. -/
theorem decode_cases {p : Params} {c : Command} {i : Instr} (h : decode p c = .ok i) :
    (∃ pad, decodeWord c.word = .cfg pad ∧ (∀ a ∈ c.payload, a < 2 ^ p.w) ∧ i = .cfg pad c.payload) ∨
    (decodeWord c.word = .enc ∧ (∀ e ∈ c.payload, e < 256) ∧ i = .enc (c.payload.map (BitVec.ofNat 8))) ∨
    (decodeWord c.word = .dec ∧ (∀ a ∈ c.payload, a < 2 ^ p.w) ∧ i = .dec c.payload) ∨
    (decodeWord c.word = .illegal ∧ i = .illegal c.word) := by
  unfold decode at h
  cases hk : decodeWord c.word <;> simp only [hk] at h
  · split at h <;> simp_all [symbolFits]
  · split at h <;> simp_all [byteFits]
  · split at h <;> simp_all [symbolFits]
  · simp_all

theorem decode_error_cases {p : Params} {c : Command} {e : DecodeError} (h : decode p c = .error e) :
    (e = .byteTooWide ∧ decodeWord c.word = .enc ∧ ¬ ∀ b ∈ c.payload, b < 256) ∨
    (e = .symbolTooWide ∧ ((∃ pad, decodeWord c.word = .cfg pad) ∨ decodeWord c.word = .dec) ∧
      ¬ ∀ a ∈ c.payload, a < 2 ^ p.w) := by
  unfold decode at h
  cases hk : decodeWord c.word <;> simp only [hk] at h
  · split at h <;> simp_all [symbolFits]
  · split at h <;> simp_all [byteFits]
  · split at h <;> simp_all [symbolFits]
  · simp at h

end Sys2Proof
end

