-- ==== Sys2Proof/Laws/PerInstr.lean ====
section
/-! SUPPORT. The facts stated of every instruction as syntax, one lemma per constructor. -/

namespace Sys2Proof.Laws.WordOfKind

/-- The word of a well-formed instruction asks for that instruction (R52, R53, R55). -/
def Statement : Instr → Prop
  | .cfg pad alphabet => decodeWord (encode (.cfg pad alphabet)).word = .cfg pad
  | .enc data => decodeWord (encode (.enc data)).word = .enc
  | .dec text => decodeWord (encode (.dec text)).word = .dec
  | .illegal word => (∃ p, (Instr.illegal word).wf p = true) → decodeWord (encode (.illegal word)).word = .illegal

theorem cfg (pad : Bool) (alphabet : List Symbol) : Statement (.cfg pad alphabet) := decodeWord_cfgWord pad

theorem enc (data : List Byte) : Statement (.enc data) := decodeWord_encWord

theorem dec (text : List Symbol) : Statement (.dec text) := decodeWord_decWord

theorem illegal (word : CmdWord) : Statement (.illegal word) := by
  rintro ⟨p, h⟩
  exact (decodeWord_eq_illegal word).2 (by simpa [Instr.wf] using h)

end Sys2Proof.Laws.WordOfKind
end

