-- ==== Sys2Proof/Tests/Slice0.lean ====
section
/-! SUPPORT. Tests: ill-formed terms the check refuses, words written out from the spec's encoding, one-step tests against
the vectors of 95_test_vectors.md, and for each statement with hypotheses a state and operands that meet them. -/

namespace Sys2Proof.Tests

open Sys2Proof Sys2Proof.Machine

/-! ## WellFormed: one ill-formed term for each check -/

/-- A build with limits, and the least width. -/
def tight : Params := { w := 6, padSym := 0x3D, maxCfgLen := some 65, maxEncLen := some 2, maxDecLen := some 3 }

theorem test_wf_cfg_over_limit : (Instr.cfg true (List.replicate 66 0)).wf tight = false := by decide
theorem test_wf_cfg_at_limit : (Instr.cfg true (List.replicate 65 0)).wf tight = true := by decide
theorem test_wf_cfg_wide_symbol : (Instr.cfg true [64]).wf tight = false := by decide
theorem test_wf_enc_over_limit : (Instr.enc [1, 2, 3]).wf tight = false := by decide
theorem test_wf_dec_over_limit : (Instr.dec [1, 2, 3, 4]).wf tight = false := by decide
theorem test_wf_dec_wide_symbol : (Instr.dec [64]).wf tight = false := by decide
theorem test_wf_illegal_of_legal_word : (Instr.illegal 0x00000011).wf tight = false := by decide

/-! ## Decode: words written out bit by bit (R51, R52) -/

theorem test_decode_cfg :
    decode Params.default ⟨0b00000000000000000000000000010001, [0x41]⟩ = .ok (.cfg true [0x41]) := by rfl
theorem test_decode_enc :
    decode Params.default ⟨0b00000000000000000000000000000010, [0xFF]⟩ = .ok (.enc [0xFF]) := by rfl
theorem test_decode_dec :
    decode Params.default ⟨0b00000000000000000000000000000011, [0x3D]⟩ = .ok (.dec [0x3D]) := by rfl
theorem test_decode_illegal :
    decode Params.default ⟨0b00000000000000000000000000100001, [0x41]⟩ = .ok (.illegal 0x00000021) := by rfl
theorem test_decode_wide_byte : decode Params.default ⟨0x00000002, [256]⟩ = .error .byteTooWide := by rfl
theorem test_decode_wide_symbol : decode Params.default ⟨0x00000003, [256]⟩ = .error .symbolTooWide := by rfl
theorem test_table_words :
    decodeTableWord 32 0x00000001 = some (.cfg false []) ∧ decodeTableWord 32 0x00000002 = some (.enc []) ∧
      decodeTableWord 32 0x00000003 = some (.dec []) := by decide

/-- Rows 0, 25, 26, 51, 52, 61, 62 and 63 of R64's table. -/
theorem test_alphabets :
    std64.length = 64 ∧ url64.length = 64 ∧
      [0, 25, 26, 51, 52, 61, 62, 63].map (std64.getD · 0) = [0x41, 0x5A, 0x61, 0x7A, 0x30, 0x39, 0x2B, 0x2F] ∧
      [61, 62, 63].map (url64.getD · 0) = [0x39, 0x2D, 0x5F] := by decide

/-! ## One step -/

/-- The state in which the command `c` is all that is pending. -/
def ask (s : State) (c : Command) : State := s.setPending [.command c]

/-- The block configured with an alphabet, and no response kept. -/
def configured (pad : Bool) (alphabet : List Symbol) : State := State.reset.commit pad alphabet

/-- `AEQ` of 95_test_vectors.md: `STD64` with the pad symbol at index 0. -/
def aeq : List Symbol := 0x3D :: std64.tail

/-- Vector C-6: the smallest repeating index is reported. -/
theorem test_cfg_duplicate :
    observed 1 (ask State.reset ⟨0x00000011, (std64.set 40 0x46).set 9 0x43⟩) =
      some [⟨.invalidAlphabetDuplicate, .empty, some 9, some 0x43⟩] := by decide

/-- Vector C-3: the length is checked first. -/
theorem test_cfg_length :
    observed 1 (ask State.reset ⟨0x00000011, std64 ++ [0x41]⟩) =
      some [⟨.invalidAlphabetLength, .empty, some 65, none⟩] := by decide

/-- Vector E-23: a full group, a tail of one byte, two pads. -/
theorem test_enc_tail :
    observed 1 (ask (configured true std64) ⟨0x00000002, [1, 2, 3, 4]⟩) =
      some [⟨.ok, .symbols [0x41, 0x51, 0x49, 0x44, 0x42, 0x41, 0x3D, 0x3D], none, none⟩] := by decide

/-- Vector W-5: the corrected URL-safe example, with padding off (90_conflicts.md C1). -/
theorem test_enc_url :
    observed 1 (ask (configured false url64) ⟨0x00000002, [0xFB, 0xEF, 0xBF]⟩) =
      some [⟨.ok, .symbols [0x2D, 0x2D, 0x2D, 0x5F], none, none⟩] := by decide

/-- Vector P-11: a pad symbol of the alphabet inside the text decodes (90_conflicts.md C7). -/
theorem test_dec_pad_inside :
    observed 1 (ask (configured true aeq) ⟨0x00000003, [0x59, 0x3D, 0x51, 0x3D]⟩) =
      some [⟨.ok, .bytes [0x60, 0x04], none, none⟩] := by decide

/-- Vector D-6: one symbol is left once the pads are stripped. -/
theorem test_dec_truncated :
    observed 1 (ask (configured true std64) ⟨0x00000003, [0x59, 0x3D, 0x3D, 0x3D]⟩) =
      some [⟨.invalidInputTruncatedGroup, .empty, some 1, none⟩] := by decide

/-- Vector B-6: an illegal word is answered so before `NOT_CONFIGURED`. -/
theorem test_illegal_first :
    observed 1 (ask State.reset ⟨0x00000012, [0x41]⟩) = some [⟨.illegalCommand, .empty, none, none⟩] := by decide

/-! ## The hypotheses of each statement are met -/

theorem std64_facts : std64.length = 64 ∧ std64.Nodup ∧ (∀ a ∈ std64, a < 256) ∧ 0x3D ∉ std64 := by decide
theorem aeq_facts : aeq.length = 64 ∧ aeq.Nodup ∧ (∀ a ∈ aeq, a < 256) := by decide

/-- A block configured from reset meets the invariant. -/
theorem configured_inv (pad : Bool) {A : List Symbol} (hl : A.length = 64) (hn : A.Nodup) (hw : ∀ a ∈ A, a < 256) :
    (configured pad A).Inv where
  params_ok := by
    show Params.default.Ok
    decide
  reverse_size := by simp [configured]
  configured := fun _ => tablesAgree_commit _ hl hn hw
  unconfigured := by simp [configured]

theorem std_inv (pad : Bool) : (configured pad std64).Inv :=
  configured_inv pad std64_facts.1 std64_facts.2.1 std64_facts.2.2.1

theorem aeq_inv (pad : Bool) : (configured pad aeq).Inv := configured_inv pad aeq_facts.1 aeq_facts.2.1 aeq_facts.2.2

theorem reset_inv : State.reset.Inv where
  params_ok := by decide
  reverse_size := by simp [State.reset]
  configured := by simp [State.reset]
  unconfigured := by simp [State.reset]

/-- The symbol of an index, in a configured block. -/
theorem read_std (pad : Bool) (i : Index) : alutRead (configured pad std64).alphabetLut i = std64[i.toNat]? :=
  alutRead_alutFill_all _ std64_facts.1 i

/-- The index of a symbol, in a configured block. -/
theorem lookup_std (pad : Bool) {i : Index} {a : Symbol} (h : std64[i.toNat]? = some a) :
    rlutLookup (configured pad std64).reverseLut a = some (some i) :=
  rlutLookup_index (((std_inv pad).configured rfl).at_of_read ((read_std pad i).trans h))

theorem witness_LegalWordsAreFourAndOthersAreAnswered :
    (ask State.reset ⟨0x00000012, [0x41]⟩).pending = .command ⟨0x00000012, [0x41]⟩ :: [] ∧
      legal 0x00000012 = false := by decide

theorem witness_DecodeOfEncodeIsTheInstruction :
    (Instr.cfg true std64).wf Params.default = true ∧ (Instr.enc [0xFF]).wf tight = true ∧
      (Instr.dec [63, 0, 61]).wf tight = true ∧ (Instr.illegal 0xFFFFFFFF).wf tight = true := by decide

theorem witness_EncodeOfDecodeIsTheCommand :
    legal 0x00000002 = true ∧ decode Params.default ⟨0x00000002, [0, 255]⟩ = .ok (.enc [0, 255]) := ⟨by decide, rfl⟩

theorem witness_StepRunsTheDecodedCommand :
    (ask State.reset ⟨0x00000003, [0x59]⟩).pending = .command ⟨0x00000003, [0x59]⟩ :: [] ∧
      decode (ask State.reset ⟨0x00000003, [0x59]⟩).params ⟨0x00000003, [0x59]⟩ = .ok (.dec [0x59]) := ⟨rfl, rfl⟩

theorem witness_StepWithoutInputChangesNothing : State.reset.pending = [] := rfl

theorem witness_EachCommandReturnsOneResponse :
    (ask State.reset ⟨0x00000000, []⟩).pending = .command ⟨0x00000000, []⟩ :: [] ∧
      step (ask State.reset ⟨0x00000000, []⟩) = .next (State.reset.respond ⟨.illegalCommand, .empty, none, none⟩) :=
  ⟨rfl, rfl⟩

theorem witness_StepKeepsTheBuild : step State.reset = .next State.reset := rfl

/-- The block of R32's remark: configured, with no entry written. -/
def unwritten : State := { State.reset with cfgValid := true }

theorem witness_ResetLeavesTheTablesWithoutValues :
    (unwritten.cfgValid = true ∧ withinCap unwritten.params.maxEncLen 1 = true ∧
      alutRead unwritten.alphabetLut (encIdx1 0xFF) = none) ∧
    (unwritten.cfgValid = true ∧ unwritten.padEn = false ∧ withinCap unwritten.params.maxDecLen 1 = true ∧
      (255 : Symbol) < 2 ^ unwritten.params.w ∧ rlutLookup unwritten.reverseLut 255 = none) ∧
    (State.reset.cfgValid = false ∧ (Instr.cfg true std64).wf State.reset.params = true) := by
  refine ⟨⟨rfl, rfl, by simp [unwritten, State.reset]⟩, ⟨rfl, rfl, rfl, by decide, ?_⟩, rfl, by decide⟩
  simp [unwritten, State.reset]

theorem witness_ResetInputRestoresTheResetState :
    ((configured true std64).setPending [.reset]).pending = .reset :: [] := rfl

theorem witness_ResetDuringACommandAbandonsIt :
    ((configured true std64).setPending [.resetDuring ⟨0x00000002, []⟩]).pending =
        .resetDuring ⟨0x00000002, []⟩ :: [] ∧
      Admitted ((configured true std64).setPending [.resetDuring ⟨0x00000002, []⟩]).params ⟨0x00000002, []⟩ :=
  ⟨rfl, .enc [], rfl, rfl⟩

/-- A reset between commands, and one during a command with an element that is no byte. -/
theorem witness_ResetKeepsTheHostSide :
    ((configured true std64).setPending [.reset]).pending = .reset :: [] ∧
      ((configured true std64).setPending [.resetDuring ⟨0x00000002, [256]⟩]).pending =
        .resetDuring ⟨0x00000002, [256]⟩ :: [] := ⟨rfl, rfl⟩

theorem witness_OnlyAResetUnconfigures :
    step ((configured true std64).setPending [.reset]) =
        .next (((configured true std64).setPending []).resetElements) ∧
      (configured true std64).cfgValid = true ∧ (((configured true std64).setPending []).resetElements).cfgValid = false ∧
      ((configured true std64).setPending [.reset]).pending = .reset :: [] := ⟨rfl, rfl, rfl, rfl⟩

theorem witness_StepKeepsTheInvariant :
    State.reset.Inv ∧ step State.reset = .next State.reset ∧ (configured true std64).Inv ∧
      step (configured true std64) = .next (configured true std64) := ⟨reset_inv, rfl, std_inv true, rfl⟩

theorem witness_AdmittedCommandsRespondAndNothingFaults :
    (configured true std64).Inv ∧
      (ask State.reset ⟨0x00000003, [0x59]⟩).pending = .command ⟨0x00000003, [0x59]⟩ :: [] ∧
      Admitted State.reset.params ⟨0x00000003, [0x59]⟩ ∧
      step (ask State.reset ⟨0x00000003, [256]⟩) = .refused .symbolTooWide :=
  ⟨std_inv true, rfl, ⟨.dec [0x59], rfl, rfl⟩, rfl⟩

theorem witness_ConfiguredTablesAreInverse : (configured true std64).Inv ∧ (configured true std64).cfgValid = true :=
  ⟨std_inv true, rfl⟩

/-- Both clauses: an unconfigured pair whose tables differ, and a configured pair. -/
theorem witness_AlikeStatesAreObservedAlike :
    (State.reset.Loaded ∧ { configured true std64 with cfgValid := false, padEn := false }.Loaded ∧
      State.reset.Alike { configured true std64 with cfgValid := false, padEn := false } ∧
      State.reset.pending = { configured true std64 with cfgValid := false, padEn := false }.pending ∧
      State.reset.responses = { configured true std64 with cfgValid := false, padEn := false }.responses) ∧
    ((configured true std64).Loaded ∧ (configured true std64).Alike (configured true std64) ∧
      (configured true std64).cfgValid = true) := by
  refine ⟨⟨?_, ?_, ⟨rfl, rfl, rfl, ?_⟩, rfl, rfl⟩, ?_, ⟨rfl, rfl, rfl, fun _ => rfl⟩, rfl⟩
  · intro h; cases h
  · intro h; cases h
  · intro h; cases h
  · exact fun _ => ⟨(std_inv true).reverse_size, (std_inv true).configured rfl⟩

/-- A reset changes the elements; the three other clauses run on a configured block. -/
theorem witness_OnlyCfgAndResetWriteTheElements :
    (((configured true std64).setPending []).resetElements).elements ≠
        ((configured true std64).setPending [.reset]).elements ∧
      exec (.enc []) (configured true std64) =
        .next ((configured true std64).respond ⟨.ok, .symbols [], none, none⟩) ∧
      exec (.dec []) (configured true std64) =
        .next ((configured true std64).respond ⟨.ok, .bytes [], none, none⟩) ∧
      exec (.illegal 0) State.reset = .next (State.reset.respond ⟨.illegalCommand, .empty, none, none⟩) := by
  refine ⟨?_, rfl, rfl, rfl⟩
  intro h
  have := congrArg Prod.fst h
  cases this

/-- A response `OK` and one that is not. -/
theorem witness_ErrorsHaveNoOutputAndWriteNothing :
    step (ask (configured true std64) ⟨0x00000002, []⟩) =
        .next ((configured true std64).respond ⟨.ok, .symbols [], none, none⟩) ∧
      step (ask State.reset ⟨0x00000002, []⟩) =
        .next (State.reset.respond ⟨.notConfigured, .empty, none, none⟩) := ⟨rfl, rfl⟩

/-- A row of the table that no other test or witness reaches: an absent symbol (vector D-25). -/
theorem witness_ResponsesFitTheResultTable :
    observed 1 (ask (configured true std64) ⟨0x00000003, [0x2E]⟩) =
      some [⟨.invalidInputSymbol, .empty, some 0, some 0x2E⟩] := by decide

theorem witness_UnconfiguredCommandsAreTurnedAway :
    State.reset.cfgValid = false ∧ withinCap State.reset.params.maxEncLen ([] : List Byte).length = true ∧
      withinCap State.reset.params.maxDecLen [255].length = true ∧ (∀ a ∈ [255], a < 2 ^ State.reset.params.w) ∧
      exec (.cfg true []) State.reset =
        .next (State.reset.respond ⟨.invalidAlphabetLength, .empty, some 0, none⟩) :=
  ⟨rfl, rfl, rfl, by decide, rfl⟩

theorem witness_PayloadsOverTheLimitGetNoStep :
    tight.maxCfgLen = some 65 ∧ 65 < (List.replicate 66 0 : List Symbol).length ∧ tight.maxEncLen = some 2 ∧
      2 < ([0, 0, 0] : List Byte).length ∧ tight.maxDecLen = some 3 ∧ 3 < ([0, 0, 0, 0] : List Symbol).length := by decide

theorem witness_NothingSucceedsBeforeAConfiguration :
    State.reset.cfgValid = false ∧
      (ask State.reset ⟨0x00000002, []⟩).pending = [(⟨0x00000002, []⟩ : Command)].map .command ∧
      Sys2Proof.core.run 1 (ask State.reset ⟨0x00000002, []⟩) =
        .next (State.reset.respond ⟨.notConfigured, .empty, none, none⟩) := ⟨rfl, rfl, rfl⟩

theorem witness_CfgRejectsAWrongLength :
    withinCap State.reset.params.maxCfgLen (List.replicate 65 0).length = true ∧
      (∀ a ∈ List.replicate 65 0, a < 2 ^ State.reset.params.w) ∧ (List.replicate 65 0).length ≠ 64 := by decide

theorem witness_CfgReportsTheFirstRepeat :
    withinCap State.reset.params.maxCfgLen (std64.set 63 0x41).length = true ∧
      (∀ a ∈ std64.set 63 0x41, a < 2 ^ State.reset.params.w) ∧ (std64.set 63 0x41).length = 64 ∧
      ¬ (std64.set 63 0x41).Nodup := by decide

/-- An alphabet that holds the pad symbol. -/
theorem witness_CfgCommitsADistinctAlphabet :
    withinCap State.reset.params.maxCfgLen aeq.length = true ∧ (∀ a ∈ aeq, a < 2 ^ State.reset.params.w) ∧
      aeq.length = 64 ∧ aeq.Nodup := by decide

theorem witness_CfgAcceptsExactlyDistinctAlphabets :
    withinCap State.reset.params.maxCfgLen aeq.length = true ∧ (∀ a ∈ aeq, a < 2 ^ State.reset.params.w) :=
  ⟨witness_CfgCommitsADistinctAlphabet.1, witness_CfgCommitsADistinctAlphabet.2.1⟩

theorem witness_CfgDependsOnItsCommandAlone :
    State.reset.params = (configured true std64).params ∧
      exec (.cfg true []) State.reset =
        .next (State.reset.respond ⟨.invalidAlphabetLength, .empty, some 0, none⟩) := ⟨rfl, rfl⟩

/-- A `CFG` and an `ENC`. -/
theorem witness_CommandsAreIdempotent :
    exec (.cfg true []) State.reset =
        .next (State.reset.respond ⟨.invalidAlphabetLength, .empty, some 0, none⟩) ∧
      exec (.enc []) (configured true std64) =
        .next ((configured true std64).respond ⟨.ok, .symbols [], none, none⟩) := ⟨rfl, rfl⟩

theorem witness_GroupsArePackedFromTheTopDown :
    (0xFBEFBF : BitVec 24) = ((0xFB : Byte).setWidth 24 <<< 16) ||| ((0xEF : Byte).setWidth 24 <<< 8) ||| (0xBF : Byte).setWidth 24 ∧
      (0xFBEFBF : BitVec 24) = ((62 : Index).setWidth 24 <<< 18) ||| ((62 : Index).setWidth 24 <<< 12) |||
        ((62 : Index).setWidth 24 <<< 6) ||| (63 : Index).setWidth 24 := by decide

theorem witness_EmptyPayloadEncodesToNothing : (configured false std64).cfgValid = true := rfl

theorem witness_EncodingIsTheBitsSixAtATime :
    (configured true aeq).Inv ∧ (configured true aeq).cfgValid = true ∧
      withinCap (configured true aeq).params.maxEncLen [0xFF].length = true := ⟨aeq_inv true, rfl, rfl⟩

theorem witness_EncodingLengthLaws :
    exec (.enc [0x61]) (configured true std64) =
        .next ((configured true std64).respond ⟨.ok, .symbols [0x59, 0x51, 0x3D, 0x3D], none, none⟩) ∧
      exec (.enc [0x61]) (configured false std64) =
        .next ((configured false std64).respond ⟨.ok, .symbols [0x59, 0x51], none, none⟩) ∧
      (configured true std64).padEn = true ∧ (configured false std64).padEn = false := ⟨rfl, rfl, rfl, rfl⟩

/-- Padding off, and on with a text of pads only. -/
theorem witness_StrippingRemovesTheTrailingPadRun :
    (configured false std64).padEn = false ∧ (configured true std64).padEn = true ∧
      (configured true std64).stripped [0x3D, 0x3D] = [] := by decide

theorem witness_ThePadCountIsNotChecked :
    (configured true std64).params.Ok ∧ (configured true std64).padEn = true ∧
      withinCap (configured true std64).params.maxDecLen ([0x59, 0x51].length + 3) = true ∧
      (∀ a ∈ [0x59, 0x51], a < 2 ^ (configured true std64).params.w) ∧ (configured true std64).cfgValid = true := by decide

theorem witness_DecodingIsTheBitsEightAtATime :
    (configured true std64).Inv ∧ (configured true std64).cfgValid = true ∧
      withinCap (configured true std64).params.maxDecLen [0x59, 0x51, 0x3D].length = true ∧
      (∀ a ∈ [0x59, 0x51, 0x3D], a < 2 ^ (configured true std64).params.w) ∧
      [24, 16].map (alutRead (configured true std64).alphabetLut) =
        ((configured true std64).stripped [0x59, 0x51, 0x3D]).map some ∧ [24, 16].length % 4 ≠ 1 := by
  refine ⟨std_inv true, rfl, rfl, by decide, ?_, by decide⟩
  simp only [List.map_cons, List.map_nil, read_std]
  decide

theorem witness_DecodingLengthLaw :
    exec (.dec [0x59, 0x51]) (configured false std64) =
      .next ((configured false std64).respond ⟨.ok, .bytes [0x61], none, none⟩) := rfl

/-- The first clause at the last index, 1, of `"Y."`; the second on `"Y"`. -/
theorem witness_DecodingReportsTheFirstError :
    ((configured true std64).Inv ∧ (configured true std64).cfgValid = true ∧
      withinCap (configured true std64).params.maxDecLen [0x59, 0x2E].length = true ∧
      (∀ a ∈ [0x59, 0x2E], a < 2 ^ (configured true std64).params.w)) ∧
    (1 < ((configured true std64).stripped [0x59, 0x2E]).length ∧ [0x59, 0x2E][1]? = some 0x2E ∧
      rlutLookup (configured true std64).reverseLut 0x2E = some none ∧
      (∀ (q' : Nat) a', q' < 1 → [0x59, 0x2E][q']? = some a' →
        rlutLookup (configured true std64).reverseLut a' ≠ some none)) ∧
    ((∀ (q : Nat) a, q < ((configured true std64).stripped [0x59]).length → [0x59][q]? = some a →
        rlutLookup (configured true std64).reverseLut a ≠ some none) ∧
      ((configured true std64).stripped [0x59]).length % 4 = 1) := by
  have hY : rlutLookup (configured true std64).reverseLut 0x59 = some (some 24) := lookup_std true (by decide)
  have h1 : ((configured true std64).stripped [0x59, 0x2E]).length = 2 := by decide
  have h2 : ((configured true std64).stripped [0x59]).length = 1 := by decide
  refine ⟨⟨std_inv true, rfl, rfl, by decide⟩, ⟨by omega, rfl, ?_, ?_⟩, ?_, by omega⟩
  · have : rlutAt (configured true std64).reverseLut 0x2E = rlutEntry std64 0x2E := rlutAt_rlutBuild std64 (by decide)
    exact rlutLookup_absent (this.trans (rlutEntry_of_not_mem (by decide)))
  · intro q' a' hq ha
    obtain rfl : q' = 0 := by omega
    obtain rfl := Option.some.inj ha
    simp [hY]
  · intro q a hq ha
    obtain rfl : q = 0 := by omega
    obtain rfl := Option.some.inj ha
    simp [hY]

/-- `"YQ"` and `"YR"`, whose last indices 16 and 17 differ in a dropped bit only; and `"YWI"` and `"YWJ"`, 8 and 9. -/
theorem witness_DiscardedBitsAreNotChecked :
    (configured true std64).Inv ∧ (configured true std64).cfgValid = true ∧
      withinCap (configured true std64).params.maxDecLen ([0x59].length + 1) = true ∧
      (∀ c ∈ [0x59, 0x57], c < 2 ^ (configured true std64).params.w) ∧
      (rlutLookup (configured true std64).reverseLut 0x51 = some (some 16) ∧
        rlutLookup (configured true std64).reverseLut 0x52 = some (some 17) ∧ (16 : Index) >>> 4 = 17 >>> 4) ∧
      (rlutLookup (configured true std64).reverseLut 0x49 = some (some 8) ∧
        rlutLookup (configured true std64).reverseLut 0x4A = some (some 9) ∧ (8 : Index) >>> 2 = 9 >>> 2) ∧
      (∀ a ∈ [0x51, 0x52, 0x49, 0x4A], a ≠ (configured true std64).params.padSym) ∧
      [0x59].length % 4 = 1 ∧ [0x59, 0x57].length % 4 = 2 ∧
      (∀ c ∈ [0x59, 0x57], ∃ k, rlutLookup (configured true std64).reverseLut c = some (some k)) := by
  refine ⟨std_inv true, rfl, rfl, by decide, ⟨lookup_std true (by decide), lookup_std true (by decide), by decide⟩,
    ⟨lookup_std true (by decide), lookup_std true (by decide), by decide⟩, by decide, rfl, rfl, ?_⟩
  intro c hc
  simp only [List.mem_cons, List.not_mem_nil, or_false] at hc
  obtain rfl | rfl := hc
  · exact ⟨24, lookup_std true (by decide)⟩
  · exact ⟨22, lookup_std true (by decide)⟩

/-- First and second clause: `STD64` and `b"a"`. -/
theorem witness_DecodingAnEncodingGivesTheBytesBack :
    (configured true std64).Inv ∧ (configured true std64).cfgValid = true ∧
      exec (.enc [0x61]) (configured true std64) =
        .next ((configured true std64).respond ⟨.ok, .symbols [0x59, 0x51, 0x3D, 0x3D], none, none⟩) ∧
      withinCap (configured true std64).params.maxDecLen [0x59, 0x51, 0x3D, 0x3D].length = true ∧
      [0x59, 0x51, 0x3D, 0x3D][dataSymbols 1 - 1]? ≠ some (configured true std64).params.padSym ∧
      (∀ i, alutRead (configured true std64).alphabetLut i ≠ some (configured true std64).params.padSym) := by
  refine ⟨std_inv true, rfl, rfl, rfl, by decide, ?_⟩
  intro i h
  rw [read_std] at h
  exact std64_facts.2.2.2 (List.mem_of_getElem? h)

/-- Third clause: vector P-3, where the last data symbol is the pad symbol. -/
theorem witness_DecodingAnEncoding_padLast :
    (configured true aeq).Inv ∧ (configured true aeq).cfgValid = true ∧ (configured true aeq).padEn = true ∧
      exec (.enc [0x10]) (configured true aeq) =
        .next ((configured true aeq).respond ⟨.ok, .symbols [0x45, 0x3D, 0x3D, 0x3D], none, none⟩) ∧
      withinCap (configured true aeq).params.maxDecLen [0x45, 0x3D, 0x3D, 0x3D].length = true ∧
      [0x45, 0x3D, 0x3D, 0x3D][dataSymbols 1 - 1]? = some (configured true aeq).params.padSym :=
  ⟨aeq_inv true, rfl, rfl, rfl, rfl, by decide⟩

theorem witness_TheIndexOfAMissIsNeverSeen :
    (rlutHit (rlutAt [.absent, .index 5] 0) = false ∧ rlutAt [.absent, .index 5] 0 ≠ .unwritten) ∧
      rlutAt [.absent, .index 5] 1 = .index 5 := by decide

end Sys2Proof.Tests
end

section
/-! The build is a constant of the design (R7, R9): no command and no other input writes a parameter. -/

namespace Sys2Proof.Machine

/-- R7, R9: of the writes a command can make, the commit and the response, neither reaches the parameters. -/
theorem exec_next_params {i : Instr} {s t : State} (h : exec i s = .next t) : t.params = s.params := by
  obtain ⟨pad, A, -, -, -, -, rfl⟩ | ⟨r, rfl⟩ := exec_next_cases h
  · simp only [State.respond_params, State.commit_params]
  · exact State.respond_params s r

/-- Settles O9, by the three kinds of step: waiting, a reset, and a command. -/
theorem stepKeepsTheBuild : Obligations.StepKeepsTheBuild := by
  intro s t h
  obtain ⟨-, rfl⟩ | ⟨rest, -, rfl⟩ | ⟨c, rest, i, -, -, hexec⟩ := step_next_cases h
  · rfl
  · simp only [State.resetElements_params, State.setPending_params]
  · exact (exec_next_params hexec).trans (State.setPending_params s rest)

end Sys2Proof.Machine
end

section
/-! The answer of `CFG` as a function of its alphabet (R34, R67 to R70). -/

namespace Sys2Proof.Machine

/-- The response of `CFG` to an alphabet the block accepts. -/
def cfgResponse (A : List Symbol) : Response :=
  if A.length ≠ 64 then errorResponse .invalidAlphabetLength (some A.length) none
  else
    match firstRepeat A with
    | some (j, a) => errorResponse .invalidAlphabetDuplicate (some j) (some a)
    | none => okResponse .empty

/-- The block after a `CFG`, before it responds: all four elements are written, or none is (R71). -/
def State.afterCfg (s : State) (pad : Bool) (A : List Symbol) : State :=
  if (cfgResponse A).result = .ok then s.commit pad A else s

theorem cfgResponse_of_result_ok {A : List Symbol} (h : (cfgResponse A).result = .ok) :
    A.length = 64 ∧ cfgResponse A = okResponse .empty := by
  unfold cfgResponse at h ⊢
  split at h
  · simp at h
  · next hl =>
    rw [if_neg hl]
    cases hr : firstRepeat A with
    | some ja => simp [hr] at h
    | none => exact ⟨not_not.mp hl, rfl⟩

theorem State.afterCfg_of_ok {A : List Symbol} (h : (cfgResponse A).result = .ok) (s : State) (pad : Bool) :
    s.afterCfg pad A = s.commit pad A := if_pos h

theorem State.afterCfg_of_not_ok {A : List Symbol} (h : (cfgResponse A).result ≠ .ok) (s : State) (pad : Bool) :
    s.afterCfg pad A = s := if_neg h

@[simp] theorem State.afterCfg_responses (s : State) (pad : Bool) (A : List Symbol) :
    (s.afterCfg pad A).responses = s.responses := by
  unfold State.afterCfg
  split
  · exact s.commit_responses pad A
  · rfl

theorem exec_cfg_of_accepted {pad : Bool} {A : List Symbol} {s : State}
    (h : refuseSymbols s.params s.params.maxCfgLen A = none) :
    exec (.cfg pad A) s = .next ((s.afterCfg pad A).respond (cfgResponse A)) := by
  rw [exec]
  obtain ⟨hl, e⟩ | ⟨j, a, hl, hr, e⟩ | ⟨hl, hr, e⟩ := execCfg_cases (pad := pad) h <;> rw [e]
  · simp [raise, State.afterCfg, cfgResponse, hl]
  · simp [raise, State.afterCfg, cfgResponse, hl, hr]
  · simp [complete, State.afterCfg, cfgResponse, hl, hr]

theorem exec_cfg_of_refused {pad : Bool} {A : List Symbol} {s : State} {e : Refusal}
    (h : refuseSymbols s.params s.params.maxCfgLen A = some e) : exec (.cfg pad A) s = .refused e :=
  execCfg_refused h

/-- The write loop over all 64 entries leaves nothing of the table before it. -/
theorem alutFill_of_length {A : List Symbol} (h : A.length = 64) (lut lut' : AlphabetLut) :
    alutFill lut 0 A = alutFill lut' 0 A :=
  alphabetLut_ext fun i => by rw [alutRead_alutFill_all lut h, alutRead_alutFill_all lut' h]

theorem State.commit_elements {s t : State} {A : List Symbol} (hp : s.params = t.params) (hl : A.length = 64)
    (pad : Bool) : (s.commit pad A).elements = (t.commit pad A).elements := by
  simp [State.elements, alutFill_of_length hl s.alphabetLut t.alphabetLut, hp]

/-- Settles O31: the response is `cfgResponse A`, and a commit overwrites all four elements. -/
theorem cfgDependsOnItsCommandAlone : Obligations.CfgDependsOnItsCommandAlone := by
  intro s t s' pad A hp h
  cases hr : refuseSymbols s.params s.params.maxCfgLen A with
  | some e => rw [exec_cfg_of_refused hr] at h; cases h
  | none =>
    rw [exec_cfg_of_accepted hr] at h
    obtain rfl := Host.Outcome.next.inj h
    refine ⟨_, cfgResponse A, exec_cfg_of_accepted (hp ▸ hr), by simp, by simp, fun hok => ?_⟩
    rw [State.afterCfg_of_ok hok, State.afterCfg_of_ok hok]
    simpa using State.commit_elements hp (cfgResponse_of_result_ok hok).1 pad

end Sys2Proof.Machine
end

section
/-! A block that is not configured reads neither table (R32): what it does with a command is the same whatever the
tables hold. -/

namespace Sys2Proof.Machine

/-- The state with other lookup tables. -/
def State.withTables (s : State) (alphabet : AlphabetLut) (reverse : ReverseLut) : State :=
  { s with alphabetLut := alphabet, reverseLut := reverse }

section
variable (s : State) (alphabet : AlphabetLut) (reverse : ReverseLut)

@[simp] theorem State.withTables_params : (s.withTables alphabet reverse).params = s.params := rfl
@[simp] theorem State.withTables_cfgValid : (s.withTables alphabet reverse).cfgValid = s.cfgValid := rfl
@[simp] theorem State.withTables_pending : (s.withTables alphabet reverse).pending = s.pending := rfl
@[simp] theorem State.withTables_responses : (s.withTables alphabet reverse).responses = s.responses := rfl
@[simp] theorem State.withTables_elements :
    (s.withTables alphabet reverse).elements = (s.cfgValid, s.padEn, alphabet, reverse) := rfl
@[simp] theorem State.withTables_self : s.withTables s.alphabetLut s.reverseLut = s := rfl

theorem State.withTables_setPending (rest : List Input) :
    (s.withTables alphabet reverse).setPending rest = (s.setPending rest).withTables alphabet reverse := rfl

theorem State.withTables_commit {A : List Symbol} (hl : A.length = 64) (pad : Bool) :
    (s.withTables alphabet reverse).commit pad A = s.commit pad A := by
  simp [State.commit, State.loadTables, State.setFlags, State.withTables,
    alutFill_of_length hl alphabet s.alphabetLut]

end

theorem exec_enc_unconfigured {s : State} {D : List Byte} (hv : s.cfgValid = false)
    (h : refuseBytes s.params.maxEncLen D = none) :
    exec (.enc D) s = .next (s.respond (errorResponse .notConfigured none none)) := by
  simp [exec, execEnc, h, hv, raise]

theorem exec_dec_unconfigured {s : State} {T : List Symbol} (hv : s.cfgValid = false)
    (h : refuseSymbols s.params s.params.maxDecLen T = none) :
    exec (.dec T) s = .next (s.respond (errorResponse .notConfigured none none)) := by
  simp [exec, execDec, h, hv, raise]

/-- All that a block that is not configured does with a command: it refuses it, answers it with an error, or commits it,
and which of these it is, with what answer, does not depend on the tables. -/
theorem exec_withTables_cases {s : State} (hv : s.cfgValid = false) (i : Instr) :
    (¬ i.wf s.params = true ∧ ∃ e, ∀ alphabet reverse, exec i (s.withTables alphabet reverse) = .refused e) ∨
    (∃ r, r.result ≠ .ok ∧ ∀ alphabet reverse,
      exec i (s.withTables alphabet reverse) = .next ((s.withTables alphabet reverse).respond r)) ∨
    (∃ pad A, ∀ alphabet reverse,
      exec i (s.withTables alphabet reverse) = .next ((s.commit pad A).respond (okResponse .empty))) := by
  cases i with
  | cfg pad A =>
    cases hr : refuseSymbols s.params s.params.maxCfgLen A with
    | some e =>
      exact .inl ⟨fun hwf => by simp [wf_cfg.mp hwf] at hr, e, fun _ _ => exec_cfg_of_refused hr⟩
    | none =>
      right
      by_cases hok : (cfgResponse A).result = .ok
      · obtain ⟨hl, hresp⟩ := cfgResponse_of_result_ok hok
        refine .inr ⟨pad, A, fun alphabet reverse => ?_⟩
        rw [exec_cfg_of_accepted (s := s.withTables alphabet reverse) hr, State.afterCfg_of_ok hok,
          State.withTables_commit s alphabet reverse hl, hresp]
      · refine .inl ⟨cfgResponse A, hok, fun alphabet reverse => ?_⟩
        rw [exec_cfg_of_accepted (s := s.withTables alphabet reverse) hr, State.afterCfg_of_not_ok hok]
  | enc D =>
    cases hr : refuseBytes s.params.maxEncLen D with
    | some e =>
      exact .inl ⟨fun hwf => by simp [wf_enc.mp hwf] at hr, e, fun _ _ => execEnc_refused hr⟩
    | none => exact .inr (.inl ⟨_, by simp, fun _ _ => exec_enc_unconfigured hv hr⟩)
  | dec T =>
    cases hr : refuseSymbols s.params s.params.maxDecLen T with
    | some e =>
      exact .inl ⟨fun hwf => by simp [wf_dec.mp hwf] at hr, e, fun _ _ => execDec_refused hr⟩
    | none => exact .inr (.inl ⟨_, by simp, fun _ _ => exec_dec_unconfigured hv hr⟩)
  | illegal w => exact .inr (.inl ⟨errorResponse .illegalCommand none none, by simp, fun _ _ => rfl⟩)

/-! ## Reset leaves no value -/

theorem alutRead_resetElements (s : State) (i : Index) : alutRead s.resetElements.alphabetLut i = none :=
  alutRead_replicate_none i

theorem rlutLookup_resetElements (s : State) (a : Symbol) : rlutLookup s.resetElements.reverseLut a = none :=
  rlutLookup_unwritten (rlutAt_replicate _ a)

/-- The reset state is what a reset makes of it. -/
theorem reset_resetElements : State.reset.resetElements = State.reset := rfl

theorem exec_enc_singleton_unwritten {s : State} {b : Byte} (hv : s.cfgValid = true)
    (hcap : withinCap s.params.maxEncLen 1 = true) (hread : alutRead s.alphabetLut (encIdx1 b) = none) :
    exec (.enc [b]) s = .fault .alphabetLutUnwritten := by
  have hr : refuseBytes s.params.maxEncLen [b] = none := refuseBytes_eq_none.mpr hcap
  have ht : encText s.alphabetLut s.params.padSym s.padEn [b] = none := by simp [encText, encGroup, hread]
  simp [exec, execEnc, hr, hv, ht]

theorem exec_dec_singleton_unwritten {s : State} {a : Symbol} (hv : s.cfgValid = true) (hpad : s.padEn = false)
    (hcap : withinCap s.params.maxDecLen 1 = true) (ha : a < 2 ^ s.params.w)
    (hread : rlutLookup s.reverseLut a = none) : exec (.dec [a]) s = .fault .reverseLutUnwritten := by
  have hr : refuseSymbols s.params s.params.maxDecLen [a] = none :=
    refuseSymbols_eq_none.mpr ⟨hcap, by simpa using ha⟩
  have ht : decText s.reverseLut 0 [a] = .error .unwritten := by
    simp [decText, lookupAt, hread, bind, Except.bind]
  simp [exec, execDec, hr, hv, hpad, stripPads_off, ht]

/-- Settles O10: the reset tables read nowhere, a first read that meets no value faults, and an unconfigured block is in
one of the three cases of `exec_withTables_cases`, the refusal being ruled out by well-formedness. -/
theorem resetLeavesTheTablesWithoutValues : Obligations.ResetLeavesTheTablesWithoutValues := by
  refine ⟨⟨rfl, rfl, alutRead_resetElements State.reset, rlutLookup_resetElements State.reset⟩,
    fun _ _ => exec_enc_singleton_unwritten, fun _ _ => exec_dec_singleton_unwritten, ?_⟩
  intro s i hv hwf
  obtain ⟨hno, -⟩ | ⟨r, hr, h⟩ | ⟨pad, A, h⟩ := exec_withTables_cases hv i
  · exact absurd hwf hno
  · exact ⟨r, s.elements, fun alphabet reverse => ⟨_, h alphabet reverse, by simp, by simp [hr]⟩⟩
  · exact ⟨okResponse .empty, (s.commit pad A).elements, fun alphabet reverse =>
      ⟨_, h alphabet reverse, by simp, by simp⟩⟩

end Sys2Proof.Machine
end

section
/-! The invariant of R20 to R32, and what it says of the tables of a configured block. -/

namespace Sys2Proof.Machine

theorem State.Inv.respond {s : State} (h : s.Inv) (r : Response) : (s.respond r).Inv :=
  ⟨h.params_ok, h.reverse_size, h.configured, h.unconfigured⟩

theorem State.Inv.setPending {s : State} (h : s.Inv) (rest : List Input) : (s.setPending rest).Inv :=
  ⟨h.params_ok, h.reverse_size, h.configured, h.unconfigured⟩

theorem State.Inv.commit {s : State} (h : s.Inv) (pad : Bool) {A : List Symbol} (hl : A.length = 64) (hn : A.Nodup)
    (hw : ∀ a ∈ A, a < 2 ^ s.params.w) : (s.commit pad A).Inv where
  params_ok := h.params_ok
  reverse_size := rlutBuild_length s.params.w A
  configured := fun _ => tablesAgree_commit s.alphabetLut hl hn hw
  unconfigured := by simp

theorem State.resetElements_inv {s : State} (h : s.params.Ok) : s.resetElements.Inv where
  params_ok := h
  reverse_size := by simp
  configured := by simp
  unconfigured := by simp

theorem exec_keeps_inv {i : Instr} {s t : State} (hs : s.Inv) (h : exec i s = .next t) : t.Inv := by
  obtain ⟨pad, A, -, hl, hn, hw, rfl⟩ | ⟨r, rfl⟩ := exec_next_cases h
  · exact (hs.commit pad hl hn hw).respond _
  · exact hs.respond r

/-- Settles O16, by the three kinds of step: waiting, a reset, and a command. -/
theorem stepKeepsTheInvariant : Obligations.StepKeepsTheInvariant := by
  intro s t hs h
  obtain ⟨-, rfl⟩ | ⟨rest, -, rfl⟩ | ⟨c, rest, i, -, -, hexec⟩ := step_next_cases h
  · exact hs
  · exact State.resetElements_inv hs.params_ok
  · exact exec_keeps_inv (hs.setPending rest) hexec

/-- Settles O15: the reset state is what a reset makes of it, in an allowed build. -/
theorem resetMeetsTheInvariant : Obligations.ResetMeetsTheInvariant := by
  unfold Obligations.ResetMeetsTheInvariant
  rw [← reset_resetElements]
  exact State.resetElements_inv (by decide)

/-! ## The tables of a configured block -/

theorem mem_alphabetLut_toList {lut : AlphabetLut} {o : Option Symbol} :
    o ∈ lut.toList ↔ ∃ i : Index, alutRead lut i = o := by
  rw [Vector.mem_toList_iff, Vector.mem_iff_getElem]
  constructor
  · rintro ⟨n, hn, rfl⟩
    exact ⟨BitVec.ofNat 6 n, by simp [alutRead, Nat.mod_eq_of_lt hn]⟩
  · rintro ⟨i, rfl⟩
    exact ⟨i.toNat, i.isLt, rfl⟩

section
variable {w : Nat} {alphabet : AlphabetLut} {reverse : ReverseLut} (h : TablesAgree w alphabet reverse)
include h

/-- The 64 entries are pairwise distinct (R25): two places of one symbol would both be its reverse entry. -/
theorem TablesAgree.read_injective : Function.Injective (alutRead alphabet) := by
  intro i j hij
  obtain ⟨a, ha⟩ := h.read i
  have hi := h.at_of_read ha
  have hj := h.at_of_read (hij ▸ ha)
  exact ReverseEntry.index.inj (hi.symm.trans hj)

theorem TablesAgree.toList_nodup : alphabet.toList.Nodup := by
  rw [List.nodup_iff_injective_get]
  intro m n hmn
  have hm : m.val < 64 := by simpa using m.isLt
  have hn : n.val < 64 := by simpa using n.isLt
  have hread : alutRead alphabet (BitVec.ofNat 6 m) = alutRead alphabet (BitVec.ofNat 6 n) := by
    simpa [alutRead, Nat.mod_eq_of_lt hm, Nat.mod_eq_of_lt hn] using hmn
  have hval := congrArg BitVec.toNat (h.read_injective hread)
  exact Fin.ext (by simpa [Nat.mod_eq_of_lt hm, Nat.mod_eq_of_lt hn] using hval)

/-- The symbols with a stored index are the entries of the alphabet table, each once. -/
theorem TablesAgree.hits_perm (hsize : reverse.length = 2 ^ w) {hits : List Symbol} (hn : hits.Nodup)
    (hhits : ∀ a, a ∈ hits ↔ a < 2 ^ w ∧ ∃ i : Index, rlutLookup reverse a = some (some i)) :
    (hits.map some).Perm alphabet.toList := by
  rw [List.perm_ext_iff_of_nodup (hn.map (Option.some_injective _)) h.toList_nodup]
  intro o
  rw [List.mem_map, mem_alphabetLut_toList]
  constructor
  · rintro ⟨a, ha, rfl⟩
    obtain ⟨hlt, i, hi⟩ := (hhits a).mp ha
    exact ⟨i, h.read_of_at hlt (rlutLookup_eq_index.mp hi)⟩
  · rintro ⟨i, rfl⟩
    obtain ⟨a, ha, hat⟩ := h.1 i
    have hlt : a < reverse.length := lt_length_of_rlutAt (by simp [hat])
    exact ⟨a, (hhits a).mpr ⟨hsize ▸ hlt, i, rlutLookup_index hat⟩, ha.symm⟩

end

/-- Settles O18: the lookups are R27's entries, and the symbols that hit are as many as the alphabet table is long. -/
theorem configuredTablesAreInverse : Obligations.ConfiguredTablesAreInverse := by
  intro s hs hv
  have hagree := hs.configured hv
  refine ⟨fun i => ?_, fun a ha hno => rlutLookup_absent (hagree.2 a ha hno),
    fun _ _ hij => hagree.read_injective hij, ?_⟩
  · obtain ⟨a, ha, hat⟩ := hagree.1 i
    exact ⟨a, ha, rlutLookup_index hat⟩
  · have hperm := hagree.hits_perm hs.reverse_size
      (hits := (List.range (2 ^ s.params.w)).filter
        (fun a => decide (∃ i : Index, rlutLookup s.reverseLut a = some (some i))))
      (List.nodup_range.filter _) (by simp)
    simpa using hperm.length_eq

/-- Settles O48, by the entry that is looked up. -/
theorem theIndexOfAMissIsNeverSeen : Obligations.TheIndexOfAMissIsNeverSeen := by
  refine fun reverse a => ⟨fun hmiss hwritten => ?_, fun i => rlutLookup_index⟩
  cases hat : rlutAt reverse a with
  | unwritten => exact absurd hat hwritten
  | absent => exact rlutLookup_absent hat
  | index i => simp [hat, rlutHit] at hmiss

end Sys2Proof.Machine
end

section
/-! What writes the four elements (R28). -/

namespace Sys2Proof.Machine

theorem exec_next_of_ne_cfg {i : Instr} {s t : State} (hi : ∀ pad A, i ≠ .cfg pad A) (h : exec i s = .next t) :
    ∃ r, t = s.respond r := by
  obtain ⟨pad, A, rfl, -⟩ | hr := exec_next_cases h
  · exact absurd rfl (hi pad A)
  · exact hr

/-- Only the word of a `CFG` decodes to a `CFG`. -/
theorem decodeWord_of_decode_cfg {p : Params} {c : Command} {pad : Bool} {A : List Symbol}
    (h : decode p c = .ok (.cfg pad A)) : decodeWord c.word = .cfg pad := by
  obtain ⟨pad', hk, -, hi⟩ | ⟨-, -, hi⟩ | ⟨-, -, hi⟩ | ⟨-, hi⟩ := decode_cases h <;> cases hi
  exact hk

/-- Settles O20: of the three kinds of step, waiting keeps the elements, and of the commands only the commit of a `CFG`
writes them. -/
theorem onlyCfgAndResetWriteTheElements : Obligations.OnlyCfgAndResetWriteTheElements := by
  refine ⟨fun s t h hne => ?_, fun _ _ _ => exec_next_of_ne_cfg (by simp),
    fun _ _ _ => exec_next_of_ne_cfg (by simp), fun _ _ _ => exec_next_of_ne_cfg (by simp)⟩
  obtain ⟨-, rfl⟩ | ⟨rest, hp, -⟩ | ⟨c, rest, i, hp, hd, hexec⟩ := step_next_cases h
  · exact absurd rfl hne
  · exact .inl ⟨rest, hp⟩
  · obtain ⟨pad, A, rfl, -, -, -, rfl⟩ | ⟨r, rfl⟩ := exec_next_cases hexec
    · exact .inr ⟨c, rest, pad, hp, decodeWord_of_decode_cfg hd, rfl⟩
    · exact absurd rfl hne

end Sys2Proof.Machine
end

section
/-! Runs (R35, R144): states that differ in unconfigured tables only are observed alike, and a run of commands is
configured by its first `OK`. -/

namespace Sys2Proof.Machine

/-! ## Runs, one step at a time -/

section
variable {M : Host.Core} {k : Nat} {s t u : M.State}

theorem run_succ_of_next (h : M.step s = .next u) : M.run (k + 1) s = M.run k u := by
  simp only [Host.Core.run, h]

theorem run_succ_congr (h : M.step s = M.step t) : M.run (k + 1) s = M.run (k + 1) t := by
  simp only [Host.Core.run, h]

theorem exists_step_of_run_succ (h : M.run (k + 1) s = .next t) :
    ∃ u, M.step s = .next u ∧ M.run k u = .next t := by
  cases hs : M.step s with
  | next u => exact ⟨u, rfl, run_succ_of_next hs ▸ h⟩
  | fault f => simp [Host.Core.run, hs] at h
  | refused e => simp [Host.Core.run, hs] at h

end

theorem observed_succ_of_next {k : Nat} {s u : State} (h : step s = .next u) : observed (k + 1) s = observed k u := by
  unfold observed
  rw [run_succ_of_next (M := Sys2Proof.core) h]

theorem observed_succ_congr {k : Nat} {s t : State} (h : step s = step t) :
    observed (k + 1) s = observed (k + 1) t := by
  unfold observed
  rw [run_succ_congr (M := Sys2Proof.core) h]

/-! ## Tables of an unconfigured block are not observed -/

/-- One step of two unconfigured states that differ in their tables: it makes them equal or refuses both, or it keeps
them unconfigured and leaves the tables. -/
theorem step_withTables {s : State} (hv : s.cfgValid = false) (alphabet : AlphabetLut) (reverse : ReverseLut) :
    step (s.withTables alphabet reverse) = step s ∨
    ∃ u, u.cfgValid = false ∧ step s = .next u ∧
      step (s.withTables alphabet reverse) = .next (u.withTables alphabet reverse) := by
  have hpt : (s.withTables alphabet reverse).pending = s.pending := s.withTables_pending alphabet reverse
  cases hp : s.pending with
  | nil => exact .inr ⟨s, hv, step_idle hp, step_idle hp⟩
  | cons x rest =>
    cases x with
    | reset => exact .inl ((step_reset (hpt.trans hp)).trans (step_reset hp).symm)
    | resetDuring c => exact .inl ((step_resetDuring (hpt.trans hp)).trans (step_resetDuring hp).symm)
    | command c =>
      cases hd : decode s.params c with
      | error e => exact .inl ((step_rejected (hpt.trans hp) hd).trans (step_rejected hp hd).symm)
      | ok i =>
        rw [step_command hp hd, step_command (hpt.trans hp) hd, State.withTables_setPending]
        generalize hs : s.setPending rest = s₁
        have hv₁ : s₁.cfgValid = false := by simpa [← hs] using hv
        obtain ⟨-, e, h⟩ | ⟨r, -, h⟩ | ⟨pad, A, h⟩ := exec_withTables_cases hv₁ i
        · exact .inl ((h _ _).trans (h s₁.alphabetLut s₁.reverseLut).symm)
        · exact .inr ⟨s₁.respond r, hv₁, h s₁.alphabetLut s₁.reverseLut, h _ _⟩
        · exact .inl ((h _ _).trans (h s₁.alphabetLut s₁.reverseLut).symm)

theorem observed_withTables {s : State} (hv : s.cfgValid = false) (alphabet : AlphabetLut) (reverse : ReverseLut)
    (k : Nat) : observed k (s.withTables alphabet reverse) = observed k s := by
  induction k generalizing s with
  | zero => rfl
  | succ k ih =>
    obtain heq | ⟨u, hu, hs, ht⟩ := step_withTables hv alphabet reverse
    · exact observed_succ_congr heq
    · rw [observed_succ_of_next ht, observed_succ_of_next hs, ih hu]

theorem State.Alike.alphabetLut_eq {s t : State} (h : s.Alike t) (hv : s.cfgValid = true) :
    s.alphabetLut = t.alphabetLut := by
  obtain ⟨-, -, -, ha⟩ := h
  exact ha hv

theorem State.Alike.reverseLut_eq {s t : State} (h : s.Alike t) (hs : s.Loaded) (ht : t.Loaded)
    (hv : s.cfgValid = true) : s.reverseLut = t.reverseLut := by
  have ha := h.alphabetLut_eq hv
  obtain ⟨hp, hc, -, -⟩ := h
  obtain ⟨hsize, hagree⟩ := hs hv
  obtain ⟨hsize', hagree'⟩ := ht (hc ▸ hv)
  rw [← hp, ← ha] at hagree'
  exact hagree.reverse_unique hagree' hsize (hp ▸ hsize')

/-- Alike states with the same host side differ in their tables only. -/
theorem State.Alike.eq_withTables {s t : State} (h : s.Alike t) (hp : s.pending = t.pending)
    (hr : s.responses = t.responses) : t = s.withTables t.alphabetLut t.reverseLut := by
  obtain ⟨hparams, hc, hpad, -⟩ := h
  cases s
  cases t
  simp_all [State.withTables]

/-- Settles O19: configured states that are alike are equal, and unconfigured ones differ in tables that no step
reads. -/
theorem alikeStatesAreObservedAlike : Obligations.AlikeStatesAreObservedAlike := by
  refine ⟨fun s t k hs ht halike hp hr => ?_, fun s t hs ht halike hv => halike.reverseLut_eq hs ht hv⟩
  rw [halike.eq_withTables hp hr]
  cases hv : s.cfgValid with
  | false => exact (observed_withTables hv _ _ k).symm
  | true =>
    rw [← halike.alphabetLut_eq hv, ← halike.reverseLut_eq hs ht hv, State.withTables_self]

/-! ## A run of commands is configured by its first OK -/

/-- The responses between `s` and `t` tell whether `t` is configured: it is when `s` was or when one of them is `OK`. -/
def State.ConfiguredByOk (s t : State) : Prop :=
  ∃ rs, t.responses = s.responses ++ rs ∧ (t.cfgValid = true ↔ s.cfgValid = true ∨ ∃ r ∈ rs, r.result = .ok)

theorem State.ConfiguredByOk.refl (s : State) : s.ConfiguredByOk s := ⟨[], by simp, by simp⟩

theorem State.ConfiguredByOk.trans {s t u : State} (h : s.ConfiguredByOk t) (h' : t.ConfiguredByOk u) :
    s.ConfiguredByOk u := by
  obtain ⟨rs, hrs, hv⟩ := h
  obtain ⟨rs', hrs', hv'⟩ := h'
  refine ⟨rs ++ rs', by rw [hrs', hrs, List.append_assoc], ?_⟩
  simp only [hv', hv, List.mem_append, or_and_right, exists_or, or_assoc]

theorem exec_next_pending {i : Instr} {s t : State} (h : exec i s = .next t) : t.pending = s.pending := by
  obtain ⟨pad, A, -, -, -, -, rfl⟩ | ⟨r, rfl⟩ := exec_next_cases h
  · simp
  · simp

theorem exec_configuredByOk {i : Instr} {s t : State} (h : exec i s = .next t) : s.ConfiguredByOk t := by
  cases hv : s.cfgValid with
  | true =>
    obtain ⟨pad, A, -, -, -, -, rfl⟩ | ⟨r, rfl⟩ := exec_next_cases h
    · exact ⟨[okResponse .empty], by simp, by simp⟩
    · exact ⟨[r], by simp, by simp [hv]⟩
  | false =>
    obtain ⟨-, e, he⟩ | ⟨r, hr, he⟩ | ⟨pad, A, he⟩ := exec_withTables_cases hv i <;>
      have h' := (he s.alphabetLut s.reverseLut).symm.trans h
    · cases h'
    · obtain rfl := Host.Outcome.next.inj h'
      exact ⟨[r], by simp, by simp [hv, hr]⟩
    · obtain rfl := Host.Outcome.next.inj h'
      exact ⟨[okResponse .empty], by simp, by simp⟩

theorem step_commands_configuredByOk {s t : State} {cs : List Command} (hp : s.pending = cs.map .command)
    (h : step s = .next t) : s.ConfiguredByOk t ∧ ∃ cs' : List Command, t.pending = cs'.map .command := by
  cases cs with
  | nil =>
    rw [step_idle hp] at h
    obtain rfl := Host.Outcome.next.inj h
    exact ⟨.refl s, [], hp⟩
  | cons c cs =>
    cases hd : decode s.params c with
    | error e => rw [step_rejected hp hd] at h; cases e <;> cases h
    | ok i =>
      rw [step_command hp hd] at h
      have hok := exec_configuredByOk h
      exact ⟨hok, cs, exec_next_pending h⟩

theorem run_commands_configuredByOk {s t : State} {cs : List Command} {k : Nat} (hp : s.pending = cs.map .command)
    (h : Sys2Proof.core.run k s = .next t) : s.ConfiguredByOk t := by
  induction k generalizing s cs with
  | zero => exact Host.Outcome.next.inj h ▸ .refl s
  | succ k ih =>
    obtain ⟨u, hs, hrun⟩ := exists_step_of_run_succ h
    obtain ⟨hsu, cs', hp'⟩ := step_commands_configuredByOk hp hs
    exact hsu.trans (ih hp' hrun)

/-- Settles O26: `run_commands_configuredByOk` from an unconfigured block. -/
theorem nothingSucceedsBeforeAConfiguration : Obligations.NothingSucceedsBeforeAConfiguration := by
  intro s t cs k hv hp h
  obtain ⟨rs, hrs, hok⟩ := run_commands_configuredByOk hp h
  exact ⟨rs, hrs, by simpa [hv] using hok⟩

end Sys2Proof.Machine
end

section
/-! The 24-bit group (R40): the bytes and the indices of a group are its fields from the top down. -/

namespace Sys2Proof.Machine

/-- `G` of R40: three bytes joined, the first the most significant. -/
def byteGroup (b1 b2 b3 : Byte) : BitVec 24 :=
  (b1.setWidth 24 <<< 16) ||| (b2.setWidth 24 <<< 8) ||| b3.setWidth 24

/-- `G'` of R40: four indices joined, the first the most significant. -/
def indexGroup (i1 i2 i3 i4 : Index) : BitVec 24 :=
  (i1.setWidth 24 <<< 18) ||| (i2.setWidth 24 <<< 12) ||| (i3.setWidth 24 <<< 6) ||| i4.setWidth 24

/-- The four 6-bit fields of a group, from the top down. -/
def indexFields (g : BitVec 24) : List Index :=
  [g.extractLsb' 18 6, g.extractLsb' 12 6, g.extractLsb' 6 6, g.extractLsb' 0 6]

/-- The three 8-bit fields of a group, from the top down. -/
def byteFields (g : BitVec 24) : List Byte := [g.extractLsb' 16 8, g.extractLsb' 8 8, g.extractLsb' 0 8]

theorem byteFields_byteGroup (b1 b2 b3 : Byte) : byteFields (byteGroup b1 b2 b3) = [b1, b2, b3] := by
  simp only [byteFields, List.cons.injEq, and_true]
  refine ⟨?_, ?_, ?_⟩ <;> ext k hk <;> interval_cases k <;> simp [byteGroup]

theorem indexFields_indexGroup (i1 i2 i3 i4 : Index) :
    indexFields (indexGroup i1 i2 i3 i4) = [i1, i2, i3, i4] := by
  simp only [indexFields, List.cons.injEq, and_true]
  refine ⟨?_, ?_, ?_, ?_⟩ <;> ext k hk <;> interval_cases k <;> simp [indexGroup]

theorem indexFields_byteGroup (b1 b2 b3 : Byte) :
    indexFields (byteGroup b1 b2 b3) = [encIdx1 b1, encIdx2 b1 b2, encIdx3 b2 b3, encIdx4 b3] := by
  simp only [indexFields, List.cons.injEq, and_true]
  refine ⟨?_, ?_, ?_, ?_⟩ <;> ext k hk <;> interval_cases k <;>
    simp [byteGroup, encIdx1, encIdx2, encIdx3, encIdx4]

theorem byteFields_indexGroup (i1 i2 i3 i4 : Index) :
    byteFields (indexGroup i1 i2 i3 i4) = [decByte1 i1 i2, decByte2 i2 i3, decByte3 i3 i4] := by
  simp only [byteFields, List.cons.injEq, and_true]
  refine ⟨?_, ?_, ?_⟩ <;> ext k hk <;> interval_cases k <;>
    simp [indexGroup, decByte1, decByte2, decByte3]

/-- Settles O34, field by field. -/
theorem groupsArePackedFromTheTopDown : Obligations.GroupsArePackedFromTheTopDown := by
  constructor
  · rintro b1 b2 b3 g (rfl : g = byteGroup b1 b2 b3)
    simpa [indexFields, eq_comm] using indexFields_byteGroup b1 b2 b3
  · rintro i1 i2 i3 i4 g (rfl : g = indexGroup i1 i2 i3 i4)
    simpa [byteFields, eq_comm] using byteFields_indexGroup i1 i2 i3 i4

end Sys2Proof.Machine
end

section
/-! The codec as a bit stream (R39, R40): the two directions cut one sequence of bits at different widths. -/

namespace Sys2Proof.Machine

/-! ## Sequences of words as sequences of bits -/

section
variable {v w : Nat}

/-- Bit `n` of a sequence of `w`-bit words read from the top down, 0 past the end: `byteBit` at width 8 and `indexBit` at
width 6. -/
def bitAt (l : List (BitVec w)) (n : Nat) : Bool := (l.getD (n / w) 0).getMsbD (n % w)

theorem bitAt_append_left {l : List (BitVec w)} {n : Nat} (h : n < w * l.length) (l' : List (BitVec w)) :
    bitAt (l ++ l') n = bitAt l n := by
  have hlt : n / w < l.length := Nat.div_lt_of_lt_mul h
  rw [bitAt, List.getD_append _ _ _ _ hlt, bitAt]

theorem bitAt_append_right (l l' : List (BitVec w)) (n : Nat) : bitAt (l ++ l') (w * l.length + n) = bitAt l' n := by
  obtain rfl | hw := Nat.eq_zero_or_pos w
  · simp [bitAt]
  · have hdiv : (w * l.length + n) / w = l.length + n / w := Nat.mul_add_div hw _ _
    rw [bitAt, hdiv, Nat.mul_add_mod, List.getD_append_right _ _ _ _ (Nat.le_add_right _ _),
      Nat.add_sub_cancel_left, bitAt]

/-- Words of zeros at the end read as absent words do (R88). -/
theorem bitAt_append_zeros (l : List (BitVec w)) (k n : Nat) : bitAt (l ++ List.replicate k 0) n = bitAt l n := by
  have hget : (l ++ List.replicate k 0).getD (n / w) 0 = l.getD (n / w) 0 := by
    obtain h | h := Nat.lt_or_ge (n / w) l.length
    · exact List.getD_append _ _ _ _ h
    · rw [List.getD_append_right _ _ _ _ h, List.getD_eq_getElem?_getD,
        List.getElem?_getD_replicate_default_eq, List.getD_eq_default _ _ h]
  rw [bitAt, hget, bitAt]

/-- The bits of `l` are the first bits of `m`, with zeros past its end. -/
def BitPrefix (l : List (BitVec v)) (m : List (BitVec w)) : Prop := ∀ n, n < v * l.length → bitAt l n = bitAt m n

theorem bitPrefix_index_byte {indices : List Index} {data : List Byte} :
    BitPrefix indices data ↔ ∀ n, n < 6 * indices.length → indexBit indices n = byteBit data n := Iff.rfl

theorem bitPrefix_byte_index {bytes : List Byte} {indices : List Index} :
    BitPrefix bytes indices ↔ ∀ n, n < 8 * bytes.length → byteBit bytes n = indexBit indices n := Iff.rfl

theorem BitPrefix.nil (m : List (BitVec w)) : BitPrefix ([] : List (BitVec v)) m :=
  fun n h => absurd h (Nat.not_lt_zero n)

theorem BitPrefix.of_append_left {l l' : List (BitVec v)} {m : List (BitVec w)} (h : BitPrefix (l ++ l') m) :
    BitPrefix l m := by
  intro n hn
  have hlt : n < v * (l ++ l').length := hn.trans_le (Nat.mul_le_mul_left v (by simp))
  exact (bitAt_append_left hn l').symm.trans (h n hlt)

theorem BitPrefix.of_append_zeros {l : List (BitVec v)} {m : List (BitVec w)} (k : Nat)
    (h : BitPrefix l (m ++ List.replicate k 0)) : BitPrefix l m :=
  fun n hn => (h n hn).trans (bitAt_append_zeros m k n)

/-- Two sequences that fill the same bits can be followed by two more. -/
theorem BitPrefix.append {l l' : List (BitVec v)} {m m' : List (BitVec w)} (h : BitPrefix l m)
    (hlen : v * l.length = w * m.length) (h' : BitPrefix l' m') : BitPrefix (l ++ l') (m ++ m') := by
  intro n hn
  obtain hlt | ⟨k, rfl⟩ := (Nat.lt_or_ge n (v * l.length)).imp_right Nat.exists_eq_add_of_le
  · rw [bitAt_append_left hlt, bitAt_append_left (hlen ▸ hlt), h n hlt]
  · have hk : k < v * l'.length := by rw [List.length_append, Nat.mul_add] at hn; omega
    rw [bitAt_append_right, hlen, bitAt_append_right, h' k hk]

end

/-! ## One group -/

theorem bitAt_byteFields (g : BitVec 24) {n : Nat} (h : n < 24) : bitAt (byteFields g) n = g.getMsbD n := by
  interval_cases n <;> simp [bitAt, byteFields, BitVec.getMsbD]

theorem bitAt_indexFields (g : BitVec 24) {n : Nat} (h : n < 24) : bitAt (indexFields g) n = g.getMsbD n := by
  interval_cases n <;> simp [bitAt, indexFields, BitVec.getMsbD]

theorem bitPrefix_encGroup (b1 b2 b3 : Byte) :
    BitPrefix [encIdx1 b1, encIdx2 b1 b2, encIdx3 b2 b3, encIdx4 b3] [b1, b2, b3] := by
  rw [← indexFields_byteGroup, ← byteFields_byteGroup b1 b2 b3]
  exact fun n hn => (bitAt_indexFields _ hn).trans (bitAt_byteFields _ hn).symm

theorem bitPrefix_decGroup (i1 i2 i3 i4 : Index) :
    BitPrefix [decByte1 i1 i2, decByte2 i2 i3, decByte3 i3 i4] [i1, i2, i3, i4] := by
  rw [← byteFields_indexGroup, ← indexFields_indexGroup i1 i2 i3 i4]
  exact fun n hn => (bitAt_byteFields _ hn).trans (bitAt_indexFields _ hn).symm

/-! ## All groups -/

/-- The indices of a payload hold its bits: a last group of one or two bytes is a whole group with zero bytes, cut
short. -/
theorem bitPrefix_encIndices : ∀ D : List Byte, BitPrefix (encIndices D) D
  | [] => .nil []
  | [b1] => .of_append_zeros 2 (.of_append_left (l' := [_, _]) (bitPrefix_encGroup b1 0 0))
  | [b1, b2] => .of_append_zeros 1 (.of_append_left (l' := [_]) (bitPrefix_encGroup b1 b2 0))
  | b1 :: b2 :: b3 :: rest => (bitPrefix_encGroup b1 b2 b3).append rfl (bitPrefix_encIndices rest)

/-- The bytes of an index sequence hold its bits: a last group of two or three indices is a whole group with zero
indices, cut short. -/
theorem bitPrefix_bytesOf : ∀ indices : List Index, BitPrefix (bytesOf indices) indices
  | [] => .nil []
  | [i1] => .nil [i1]
  | [i1, i2] => .of_append_zeros 2 (.of_append_left (l' := [_, _]) (bitPrefix_decGroup i1 i2 0 0))
  | [i1, i2, i3] => .of_append_zeros 1 (.of_append_left (l' := [_]) (bitPrefix_decGroup i1 i2 i3 0))
  | i1 :: i2 :: i3 :: i4 :: rest => (bitPrefix_decGroup i1 i2 i3 i4).append rfl (bitPrefix_bytesOf rest)

/-! ## The two commands -/

theorem exec_enc_of_encText {s : State} {D : List Byte} {out : List Symbol} (hv : s.cfgValid = true)
    (hcap : withinCap s.params.maxEncLen D.length = true)
    (ht : encText s.alphabetLut s.params.padSym s.padEn D = some out) :
    exec (.enc D) s = .next (s.respond (okResponse (.symbols out))) := by
  simp [exec, execEnc, refuseBytes_eq_none.mpr hcap, hv, ht, complete]

theorem exec_dec_of_decText {s : State} {T : List Symbol} {out : List Byte} (hv : s.cfgValid = true)
    (hcap : withinCap s.params.maxDecLen T.length = true) (hT : ∀ a ∈ T, a < 2 ^ s.params.w)
    (ht : decText s.reverseLut 0 (s.stripped T) = .ok out) :
    exec (.dec T) s = .next (s.respond (okResponse (.bytes out))) := by
  rw [State.stripped] at ht
  simp [exec, execDec, refuseSymbols_eq_none.mpr ⟨hcap, hT⟩, hv, ht, complete]

/-- Settles O35: the indices are `encIndices data`. -/
theorem encodingIsTheBitsSixAtATime : Obligations.EncodingIsTheBitsSixAtATime := by
  intro s data hs hv hcap
  have hread := (hs.configured hv).read
  obtain ⟨symbols, hsymbols⟩ := reads_all hread (encIndices data)
  have htext := encText_eq hread s.params.padSym s.padEn data symbols hsymbols
  exact ⟨encIndices data, symbols, encIndices_length data, bitPrefix_index_byte.mp (bitPrefix_encIndices data),
    hsymbols, exec_enc_of_encText hv hcap htext⟩

/-- Symbols read from the alphabet table, not one more than a multiple of four, decode to the bytes of their indices. -/
theorem decText_of_reads {w : Nat} {alphabet : AlphabetLut} {reverse : ReverseLut} (h : TablesAgree w alphabet reverse)
    {S : List Symbol} {indices : List Index} (hreads : indices.map (alutRead alphabet) = S.map some)
    (hmod : indices.length % 4 ≠ 1) (q : Nat) : decText reverse q S = .ok (bytesOf indices) := by
  have hlookups := lookups_of_reads h hreads (q := q)
  rw [lookups_length hlookups] at hmod
  rw [decText_eq, hlookups]
  exact if_neg hmod

/-- Settles O41: the bytes are `bytesOf indices`. -/
theorem decodingIsTheBitsEightAtATime : Obligations.DecodingIsTheBitsEightAtATime := by
  intro s text indices hs hv hcap hT hreads hmod
  have htext := decText_of_reads (hs.configured hv) hreads hmod 0
  exact ⟨bytesOf indices, bytesOf_length indices hmod, bitPrefix_byte_index.mp (bitPrefix_bytesOf indices),
    exec_dec_of_decText hv hcap hT htext⟩

end Sys2Proof.Machine
end

section
/-! Commands that get no step: a refusal is about the payload alone (R49). -/

namespace Sys2Proof.Machine

theorem withinCap_eq_false {cap : Option Nat} {n : Nat} : withinCap cap n = false ↔ ∃ m, cap = some m ∧ m < n := by
  cases cap <;> simp [withinCap]

theorem refuseSymbols_eq_overCapacity {p : Params} {cap : Option Nat} {A : List Symbol} :
    refuseSymbols p cap A = some .payloadOverCapacity ↔ ∃ m, cap = some m ∧ m < A.length := by
  rw [← withinCap_eq_false]
  constructor
  · intro h
    obtain ⟨hcap, -⟩ | ⟨-, -, hne⟩ := refuseSymbols_eq_some h
    · exact hcap
    · cases hne
  · intro hcap
    simp [refuseSymbols, hcap]

theorem refuseBytes_eq_overCapacity {cap : Option Nat} {D : List Byte} :
    refuseBytes cap D = some .payloadOverCapacity ↔ ∃ m, cap = some m ∧ m < D.length := by
  rw [← withinCap_eq_false]
  constructor
  · intro h
    obtain ⟨hcap, -⟩ := refuseBytes_eq_some h
    exact hcap
  · intro hcap
    simp [refuseBytes, hcap]

theorem exec_cfg_eq_refused {pad : Bool} {A : List Symbol} {s : State} {r : Refusal} :
    exec (.cfg pad A) s = .refused r ↔ refuseSymbols s.params s.params.maxCfgLen A = some r := by
  cases hr : refuseSymbols s.params s.params.maxCfgLen A with
  | some e => simp [exec_cfg_of_refused hr]
  | none => simp [exec_cfg_of_accepted hr]

theorem exec_enc_eq_refused {D : List Byte} {s : State} {r : Refusal} :
    exec (.enc D) s = .refused r ↔ refuseBytes s.params.maxEncLen D = some r := by
  rw [exec]
  cases hr : refuseBytes s.params.maxEncLen D with
  | some e => simp [execEnc_refused hr]
  | none =>
    obtain ⟨-, e⟩ | ⟨out, -, -, e⟩ | ⟨-, -, e⟩ := execEnc_cases hr <;> simp [e, raise, complete]

theorem exec_dec_eq_refused {T : List Symbol} {s : State} {r : Refusal} :
    exec (.dec T) s = .refused r ↔ refuseSymbols s.params s.params.maxDecLen T = some r := by
  rw [exec]
  cases hr : refuseSymbols s.params s.params.maxDecLen T with
  | some e => simp [execDec_refused hr]
  | none =>
    obtain ⟨-, e⟩ | ⟨out, -, -, e⟩ | ⟨q, a, -, -, e⟩ | ⟨m, -, -, e⟩ | ⟨-, -, e⟩ := execDec_cases hr <;>
      simp [e, raise, complete]

/-- Settles O25, for each command by its payload check. -/
theorem payloadsOverTheLimitGetNoStep : Obligations.PayloadsOverTheLimitGetNoStep := fun _ =>
  ⟨fun _ _ => exec_cfg_eq_refused.trans refuseSymbols_eq_overCapacity,
    fun _ => exec_enc_eq_refused.trans refuseBytes_eq_overCapacity,
    fun _ => exec_dec_eq_refused.trans refuseSymbols_eq_overCapacity⟩

end Sys2Proof.Machine
end

section
/-! Commands as steps: what a step runs (R46, R50), and that a command repeated changes nothing more (R45). -/

namespace Sys2Proof.Machine

/-- Settles O6: it is the model's own law of a command's step. -/
theorem stepRunsTheDecodedCommand : Obligations.StepRunsTheDecodedCommand := fun _ _ _ _ => step_command

/-- `ENC`, `DEC` and an illegal word do not look at the earlier responses (R30). -/
theorem exec_respond_of_ne_cfg {i : Instr} {s : State} {r : Response} (hi : ∀ pad A, i ≠ .cfg pad A)
    (h : exec i s = .next (s.respond r)) (r' : Response) :
    exec i (s.respond r') = .next ((s.respond r').respond r) := by
  cases i with
  | cfg pad A => exact absurd rfl (hi pad A)
  | enc D =>
    cases hr : refuseBytes s.params.maxEncLen D with
    | some e => simp [exec, execEnc, hr] at h
    | none =>
      obtain ⟨hv, -⟩ | ⟨out, hv, ht, -⟩ | ⟨hv, ht, -⟩ := execEnc_cases hr <;>
        simp_all [exec, execEnc, raise, complete, State.respond_inj]
  | dec T =>
    cases hr : refuseSymbols s.params s.params.maxDecLen T with
    | some e => simp [exec, execDec, hr] at h
    | none =>
      obtain ⟨hv, -⟩ | ⟨out, hv, ht, -⟩ | ⟨q, a, hv, ht, -⟩ | ⟨m, hv, ht, -⟩ | ⟨hv, ht, -⟩ := execDec_cases hr <;>
        simp_all [exec, execDec, raise, complete, State.respond_inj]
  | illegal w => simpa [exec, execIllegal, raise, State.respond_inj] using h

/-- A second commit of one alphabet writes what is there, and a `CFG` that failed fails again. -/
theorem State.afterCfg_again_elements (s : State) (pad : Bool) (A : List Symbol) (r : Response) :
    (((s.afterCfg pad A).respond r).afterCfg pad A).elements = (s.afterCfg pad A).elements := by
  by_cases hok : (cfgResponse A).result = .ok
  · simp only [State.afterCfg_of_ok hok]
    exact State.commit_elements (by simp) (cfgResponse_of_result_ok hok).1 pad
  · simp only [State.afterCfg_of_not_ok hok, State.respond_elements]

theorem exec_cfg_again {pad : Bool} {A : List Symbol} {s t : State} {r : Response}
    (h : exec (.cfg pad A) s = .next t) (hresp : t.responses = s.responses ++ [r]) :
    ∃ u, exec (.cfg pad A) t = .next u ∧ u.responses = t.responses ++ [r] ∧ u.elements = t.elements := by
  cases hr : refuseSymbols s.params s.params.maxCfgLen A with
  | some e => rw [exec_cfg_of_refused hr] at h; cases h
  | none =>
    have hu := exec_cfg_of_accepted (pad := pad) (s := t) (exec_next_params h ▸ hr)
    rw [exec_cfg_of_accepted hr] at h
    obtain rfl := Host.Outcome.next.inj h
    obtain rfl : cfgResponse A = r := by simpa using hresp
    exact ⟨_, hu, by simp, by simpa using s.afterCfg_again_elements pad A (cfgResponse A)⟩

/-- Settles O32: a `CFG` writes the same again, and every other command only responds. -/
theorem commandsAreIdempotent : Obligations.CommandsAreIdempotent := by
  intro i s t r h hresp
  by_cases hi : ∃ pad A, i = .cfg pad A
  · obtain ⟨pad, A, rfl⟩ := hi
    exact ⟨exec_cfg_again h hresp, fun hne => absurd rfl (hne pad A)⟩
  · have hne : ∀ pad A, i ≠ .cfg pad A := fun pad A e => hi ⟨pad, A, e⟩
    obtain ⟨r', rfl⟩ := exec_next_of_ne_cfg hne h
    obtain rfl : r' = r := by simpa using hresp
    exact ⟨⟨_, exec_respond_of_ne_cfg hne h r', by simp, by simp⟩, fun _ => by simp⟩

end Sys2Proof.Machine
end

section
/-! The command words and the codec of commands (R51 to R56): a word asks for a `CFG`, an `ENC` or a `DEC` exactly when it
is the word the encoder builds for it. -/

namespace Sys2Proof

/-! ## The words (R51, R52, R55) -/

theorem cmdWord_toNat (opc : BitVec 4) (pad : Bool) : (cmdWord opc pad).toNat = 16 * pad.toNat + opc.toNat := by
  rw [cmdWord, BitVec.toNat_append, BitVec.toNat_append, BitVec.toNat_ofBool, ← Nat.shiftLeft_add_eq_or_of_lt opc.isLt]
  simp [Nat.shiftLeft_eq, Nat.mul_comm]

/-- A word whose bits 31:5 are 0 is `OPC` and `PAD` put together. -/
theorem eq_cmdWord_of_fields {w : CmdWord} {opc : BitVec 4} {pad : Bool} (hrsv : rsvField w = 0)
    (hopc : opcField w = opc) (hpad : padField w = pad) : w = cmdWord opc pad := by
  rw [rsvField_eq_zero] at hrsv
  rw [opcField_eq] at hopc
  rw [padField_eq] at hpad
  apply BitVec.eq_of_toNat_eq
  rw [cmdWord_toNat, ← hopc, ← hpad]
  rcases Nat.mod_two_eq_zero_or_one (w.toNat / 16) with h | h <;> simp [h] <;> omega

theorem eq_cfgWord_of_decodeWord {w : CmdWord} {pad : Bool} (h : decodeWord w = .cfg pad) : w = cmdWord 1 pad := by
  unfold decodeWord at h
  split_ifs at h with hrsv hopc
  exact eq_cmdWord_of_fields (not_not.mp hrsv) hopc (Kind.cfg.inj h)

theorem eq_encWord_of_decodeWord {w : CmdWord} (h : decodeWord w = .enc) : w = cmdWord 2 false := by
  unfold decodeWord at h
  split_ifs at h with hrsv _ hopc hpad
  exact eq_cmdWord_of_fields (not_not.mp hrsv) hopc (Bool.eq_false_iff.mpr hpad)

theorem eq_decWord_of_decodeWord {w : CmdWord} (h : decodeWord w = .dec) : w = cmdWord 3 false := by
  unfold decodeWord at h
  split_ifs at h with hrsv _ _ _ hopc hpad
  exact eq_cmdWord_of_fields (not_not.mp hrsv) hopc (Bool.eq_false_iff.mpr hpad)

/-- R55's formula, on the fields as numbers. -/
theorem legal_iff_toNat (w : CmdWord) : legal w = true ↔
    w.toNat / 32 = 0 ∧ (w.toNat % 16 = 1 ∨ (w.toNat % 16 = 2 ∨ w.toNat % 16 = 3) ∧ w.toNat / 16 % 2 = 0) := by
  rw [legal_iff, rsvField_eq_zero, padField_eq]
  simp [opcField_eq]

theorem legal_iff_mem_words (w : CmdWord) : legal w = true ↔
    w = 0x00000001 ∨ w = 0x00000011 ∨ w = 0x00000002 ∨ w = 0x00000003 := by
  rw [legal_iff_toNat]
  simp [← BitVec.toNat_inj]
  omega

/-! ## Decoding, by what the word asks for (R56) -/

section
variable {p : Params} {c : Command}

theorem decode_of_cfg {pad : Bool} (hk : decodeWord c.word = .cfg pad) (h : ∀ a ∈ c.payload, a < 2 ^ p.w) :
    decode p c = .ok (.cfg pad c.payload) := by
  simpa [decode, hk, symbolFits] using h

theorem decode_of_enc (hk : decodeWord c.word = .enc) (h : ∀ e ∈ c.payload, e < 256) :
    decode p c = .ok (.enc (c.payload.map (BitVec.ofNat 8))) := by
  simpa [decode, hk, byteFits] using h

theorem decode_of_dec (hk : decodeWord c.word = .dec) (h : ∀ a ∈ c.payload, a < 2 ^ p.w) :
    decode p c = .ok (.dec c.payload) := by
  simpa [decode, hk, symbolFits] using h

theorem decode_of_illegal (hk : decodeWord c.word = .illegal) : decode p c = .ok (.illegal c.word) := by
  simp [decode, hk]

end

/-! ## Payloads of bytes -/

theorem lt_of_mem_map_toNat {data : List Byte} : ∀ e ∈ data.map BitVec.toNat, e < 256 := by
  intro e he
  obtain ⟨b, -, rfl⟩ := List.mem_map.mp he
  exact b.isLt

theorem map_ofNat_map_toNat (data : List Byte) : (data.map BitVec.toNat).map (BitVec.ofNat 8) = data := by
  simp [Function.comp_def]

theorem map_toNat_map_ofNat {payload : List Element} (h : ∀ e ∈ payload, e < 256) :
    (payload.map (BitVec.ofNat 8)).map BitVec.toNat = payload := by
  rw [List.map_map]
  exact (List.map_congr_left fun e he => Nat.mod_eq_of_lt (h e he)).trans (List.map_id payload)

/-! ## The codec (R51 to R56) -/

/-- Settles O2, by the four constructors: the encoder's word asks for the instruction, and a well-formed payload passes the
check of its type and comes back. -/
theorem decodeOfEncodeIsTheInstruction : Obligations.DecodeOfEncodeIsTheInstruction := by
  intro p i hwf
  cases i with
  | cfg pad A =>
    exact decode_of_cfg (Laws.WordOfKind.cfg pad A) (Machine.refuseSymbols_eq_none.mp (Machine.wf_cfg.mp hwf)).2
  | enc D =>
    rw [decode_of_enc (Laws.WordOfKind.enc D) lt_of_mem_map_toNat]
    exact congrArg (Except.ok ∘ Instr.enc) (map_ofNat_map_toNat D)
  | dec T =>
    exact decode_of_dec (Laws.WordOfKind.dec T) (Machine.refuseSymbols_eq_none.mp (Machine.wf_dec.mp hwf)).2
  | illegal w => exact decode_of_illegal (Laws.WordOfKind.illegal w ⟨p, hwf⟩)

/-- Settles O3, by what the word asks for: a legal word is the encoder's word of its kind, and decoding keeps the
payload. -/
theorem encodeOfDecodeIsTheCommand : Obligations.EncodeOfDecodeIsTheCommand := by
  rintro p ⟨w, payload⟩ i hlegal hd
  obtain ⟨pad, hk, -, rfl⟩ | ⟨hk, hbytes, rfl⟩ | ⟨hk, -, rfl⟩ | ⟨hk, -⟩ := decode_cases hd
  · exact congrArg (Command.mk · payload) (eq_cfgWord_of_decodeWord hk).symm
  · exact congrArg₂ Command.mk (eq_encWord_of_decodeWord hk).symm (map_toNat_map_ofNat hbytes)
  · exact congrArg (Command.mk · payload) (eq_decWord_of_decodeWord hk).symm
  · exact absurd ((decodeWord_eq_illegal w).mp hk) (by simp [hlegal])

/-- Settles O1: the legal words by their numeric fields, and an illegal one as a step that only responds. -/
theorem legalWordsAreFourAndOthersAreAnswered : Obligations.LegalWordsAreFourAndOthersAreAnswered := by
  refine ⟨legal_iff_toNat, legal_iff_mem_words, fun s c rest hp hillegal => ?_⟩
  exact Machine.step_command hp (decode_of_illegal ((decodeWord_eq_illegal c.word).mpr hillegal))

/-! ## Commands written out (R63 to R65) -/

/-- Settles O4: `decode` evaluates to the instruction on each of the six commands. -/
theorem writtenOutCommandsDecode : Obligations.WrittenOutCommandsDecode :=
  ⟨rfl, rfl, rfl, rfl, rfl, rfl⟩

theorem cmdWord_cfg (pad : Bool) : cmdWord 1 pad = if pad then 0x00000011 else 0x00000001 := by
  cases pad <;> rfl

/-- Settles O5: the two forms assemble to one command by definition, and its word is the encoder's. -/
theorem pseudoCommandsAreCfgCommands : Obligations.PseudoCommandsAreCfgCommands := by
  intro pad
  have hencode (A : List Symbol) : (⟨if pad then 0x00000011 else 0x00000001, A⟩ : Command) = encode (.cfg pad A) := by
    rw [encode, cmdWord_cfg]
  exact ⟨rfl, hencode std64, rfl, hencode url64, rfl, rfl⟩

end Sys2Proof
end

section
/-! The response of a command (R50, R58): a command that takes a step either completes or raises one error, and an error
writes nothing. -/

namespace Sys2Proof.Machine

/-- R58, R71, R123: what a command that takes a step answers. After an error the state is as before but for the response
added. -/
theorem exec_next_response {i : Instr} {s t : State} (h : exec i s = .next t) :
    (∃ out, t.responses = s.responses ++ [okResponse out]) ∨
    (∃ e pos sym, e ≠ .ok ∧ t = s.respond (errorResponse e pos sym)) := by
  cases i with
  | cfg pad A =>
    rw [exec] at h
    cases hr : refuseSymbols s.params s.params.maxCfgLen A with
    | some r => rw [execCfg_refused hr] at h; cases h
    | none =>
      obtain ⟨-, e⟩ | ⟨j, a, -, -, e⟩ | ⟨-, -, e⟩ := execCfg_cases (pad := pad) hr <;> rw [e] at h
      · exact .inr ⟨_, _, _, by decide, (Host.Outcome.next.inj h).symm⟩
      · exact .inr ⟨_, _, _, by decide, (Host.Outcome.next.inj h).symm⟩
      · exact .inl ⟨_, congrArg State.responses (Host.Outcome.next.inj h).symm⟩
  | enc D =>
    rw [exec] at h
    cases hr : refuseBytes s.params.maxEncLen D with
    | some r => rw [execEnc_refused hr] at h; cases h
    | none =>
      obtain ⟨-, e⟩ | ⟨out, -, -, e⟩ | ⟨-, -, e⟩ := execEnc_cases hr <;> rw [e] at h
      · exact .inr ⟨_, _, _, by decide, (Host.Outcome.next.inj h).symm⟩
      · exact .inl ⟨_, congrArg State.responses (Host.Outcome.next.inj h).symm⟩
      · cases h
  | dec T =>
    rw [exec] at h
    cases hr : refuseSymbols s.params s.params.maxDecLen T with
    | some r => rw [execDec_refused hr] at h; cases h
    | none =>
      obtain ⟨-, e⟩ | ⟨out, -, -, e⟩ | ⟨q, a, -, -, e⟩ | ⟨m, -, -, e⟩ | ⟨-, -, e⟩ := execDec_cases hr <;> rw [e] at h
      · exact .inr ⟨_, _, _, by decide, (Host.Outcome.next.inj h).symm⟩
      · exact .inl ⟨_, congrArg State.responses (Host.Outcome.next.inj h).symm⟩
      · exact .inr ⟨_, _, _, by decide, (Host.Outcome.next.inj h).symm⟩
      · exact .inr ⟨_, _, _, by decide, (Host.Outcome.next.inj h).symm⟩
      · cases h
  | illegal w => exact .inr ⟨_, _, _, by decide, (Host.Outcome.next.inj h).symm⟩

/-- A step to a next state on a command is the meaning of the instruction the command decodes to. -/
theorem exec_of_step_command {s t : State} {c : Command} {rest : List Input} (hp : s.pending = .command c :: rest)
    (h : step s = .next t) : ∃ i, exec i (s.setPending rest) = .next t := by
  cases hd : decode s.params c with
  | ok i => exact ⟨i, step_command hp hd ▸ h⟩
  | error e => rw [step_rejected hp hd] at h; cases e <;> cases h

/-- Settles O8: the meaning of a command keeps the inputs that are left and the build, and adds one response. -/
theorem eachCommandReturnsOneResponse : Obligations.EachCommandReturnsOneResponse := by
  intro s t c rest hp h
  obtain ⟨i, hexec⟩ := exec_of_step_command hp h
  refine ⟨exec_next_pending hexec, (exec_next_params hexec).trans (s.setPending_params rest), ?_⟩
  obtain ⟨out, hok⟩ | ⟨e, pos, sym, -, rfl⟩ := exec_next_response hexec
  · exact ⟨okResponse out, hok⟩
  · exact ⟨errorResponse e pos sym, rfl⟩

/-- Settles O21: the response of a command that completes has no error context, and an error is only a response. -/
theorem errorsHaveNoOutputAndWriteNothing : Obligations.ErrorsHaveNoOutputAndWriteNothing := by
  intro s t c rest r hp h hr
  obtain ⟨i, hexec⟩ := exec_of_step_command hp h
  obtain ⟨out, hok⟩ | ⟨e, pos, sym, hne, rfl⟩ := exec_next_response hexec
  · obtain rfl : okResponse out = r := by simpa [hr] using hok.symm
    exact ⟨fun _ => ⟨rfl, rfl⟩, fun hne => absurd rfl hne⟩
  · obtain rfl : errorResponse e pos sym = r := by simpa using hr
    exact ⟨fun hok => absurd hok hne, fun _ => ⟨rfl, rfl⟩⟩

end Sys2Proof.Machine
end

section
/-! `CFG` (R67 to R70, R77, R83): a wrong length, a repeated symbol, or the commit of 64 distinct symbols. -/

namespace Sys2Proof.Machine

/-! ## The response, by the alphabet -/

theorem cfgResponse_of_length_ne {A : List Symbol} (hl : A.length ≠ 64) :
    cfgResponse A = errorResponse .invalidAlphabetLength (some A.length) none := if_pos hl

theorem cfgResponse_of_repeat {A : List Symbol} {j : Nat} {a : Symbol} (hl : A.length = 64)
    (hr : firstRepeat A = some (j, a)) :
    cfgResponse A = errorResponse .invalidAlphabetDuplicate (some j) (some a) := by
  simp [cfgResponse, hl, hr]

theorem cfgResponse_of_nodup {A : List Symbol} (hl : A.length = 64) (hn : A.Nodup) :
    cfgResponse A = okResponse .empty := by
  simp [cfgResponse, hl, firstRepeat_none.mpr hn]

/-- R77: uniqueness and length are all that `CFG` checks. -/
theorem cfgResponse_eq_ok_iff {A : List Symbol} :
    cfgResponse A = okResponse .empty ↔ A.length = 64 ∧ A.Nodup := by
  refine ⟨fun h => ?_, fun ⟨hl, hn⟩ => cfgResponse_of_nodup hl hn⟩
  have hl : A.length = 64 := (cfgResponse_of_result_ok (congrArg Response.result h)).1
  cases hr : firstRepeat A with
  | none => exact ⟨hl, firstRepeat_none.mp hr⟩
  | some ja =>
    rw [cfgResponse_of_repeat hl hr] at h
    exact absurd (congrArg Response.result h) (by simp)

/-! ## The command, on a payload the block accepts -/

/-- R71: a `CFG` that fails only responds. -/
theorem exec_cfg_of_error {s : State} {pad : Bool} {A : List Symbol} {e : Result} {pos : Option Nat}
    {sym : Option Symbol} (h : refuseSymbols s.params s.params.maxCfgLen A = none) (he : e ≠ .ok)
    (hresp : cfgResponse A = errorResponse e pos sym) :
    exec (.cfg pad A) s = .next (s.respond (errorResponse e pos sym)) := by
  rw [exec_cfg_of_accepted h, State.afterCfg_of_not_ok (by simpa [hresp] using he), hresp]

/-- R70: 64 distinct symbols are committed. -/
theorem exec_cfg_of_nodup {s : State} {pad : Bool} {A : List Symbol}
    (h : refuseSymbols s.params s.params.maxCfgLen A = none) (hl : A.length = 64) (hn : A.Nodup) :
    exec (.cfg pad A) s = .next ((s.commit pad A).respond (okResponse .empty)) := by
  have hresp := cfgResponse_of_nodup hl hn
  rw [exec_cfg_of_accepted h, State.afterCfg_of_ok (by simp [hresp]), hresp]

/-- Settles O27: the length is the first check. -/
theorem cfgRejectsAWrongLength : Obligations.CfgRejectsAWrongLength := fun _ _ _ hcap hw hl =>
  exec_cfg_of_error (refuseSymbols_eq_none.mpr ⟨hcap, hw⟩) (by decide) (cfgResponse_of_length_ne hl)

theorem mem_take_iff_exists_getElem? {A : List Symbol} {j : Nat} {a : Symbol} :
    a ∈ A.take j ↔ ∃ i, i < j ∧ A[i]? = some a := by
  simp [List.mem_iff_getElem?, List.getElem?_take]

/-- Settles O28: a list with a repeat has a first one, and that is what the scan reports. -/
theorem cfgReportsTheFirstRepeat : Obligations.CfgReportsTheFirstRepeat := by
  intro s pad A hcap hw hl hdup
  obtain ⟨⟨j, a⟩, hr⟩ := Option.ne_none_iff_exists'.mp (mt firstRepeat_none.mp hdup)
  obtain ⟨hj, hmem, hfirst⟩ := firstRepeat_some hr
  refine ⟨j, a, hj, ?_, ?_,
    exec_cfg_of_error (refuseSymbols_eq_none.mpr ⟨hcap, hw⟩) (by decide) (cfgResponse_of_repeat hl hr)⟩
  · exact mem_take_iff_exists_getElem?.mp hmem
  · intro k i hik hkj heq
    have hk : k < A.length := hkj.trans (List.getElem?_eq_some_iff.mp hj).1
    have hkth : A[k]? = some A[k] := List.getElem?_eq_getElem hk
    exact hfirst k A[k] hkj hkth (mem_take_iff_exists_getElem?.mpr ⟨i, hik, heq.trans hkth⟩)

/-- Settles O30: the response added is `cfgResponse`, in every state. -/
theorem cfgAcceptsExactlyDistinctAlphabets : Obligations.CfgAcceptsExactlyDistinctAlphabets := by
  intro s pad A hcap hw
  have hexec := exec_cfg_of_accepted (pad := pad) (refuseSymbols_eq_none.mpr ⟨hcap, hw⟩)
  rw [← cfgResponse_eq_ok_iff]
  constructor
  · rintro ⟨t, ht, hresp⟩
    obtain rfl := Host.Outcome.next.inj (hexec.symm.trans ht)
    simpa [okResponse] using hresp
  · intro hok
    exact ⟨_, hexec, by simp [hok, okResponse]⟩

/-! ## The commit -/

/-- R27, R75: of the build's symbols, the one that looks up to `i` is the one `ALPHABET_LUT` holds at `i`. -/
theorem TablesAgree.lookup_eq_index_iff {w : Nat} {alphabet : AlphabetLut} {reverse : ReverseLut}
    (h : TablesAgree w alphabet reverse) {a : Symbol} (ha : a < 2 ^ w) {i : Index} :
    rlutLookup reverse a = some (some i) ↔ alutRead alphabet i = some a :=
  rlutLookup_eq_index.trans ⟨h.read_of_at ha, h.at_of_read⟩

/-- Settles O29: the reverse table is the inverse of the alphabet table, whose entries are the payload's symbols. -/
theorem cfgCommitsADistinctAlphabet : Obligations.CfgCommitsADistinctAlphabet := by
  intro s pad A hcap hw hl hn
  have hread : ∀ i : Index, alutRead (s.commit pad A).alphabetLut i = A[i.toNat]? :=
    alutRead_alutFill_all s.alphabetLut hl
  have htables : TablesAgree s.params.w (s.commit pad A).alphabetLut (s.commit pad A).reverseLut :=
    tablesAgree_commit s.alphabetLut hl hn hw
  refine ⟨_, exec_cfg_of_nodup (refuseSymbols_eq_none.mpr ⟨hcap, hw⟩) hl hn, rfl, rfl, hread, ?_, ?_, rfl, rfl, rfl⟩
  · intro a ha i
    rw [← hread]
    exact htables.lookup_eq_index_iff ha
  · intro a ha hno
    refine rlutLookup_absent (htables.2 a ha fun i hi => hno ?_)
    exact List.mem_of_getElem? ((hread i).symm.trans hi)

/-- Settles O47: it is the commit of `STD64`, whose entries are read off the alphabet. -/
theorem workedConfiguration : Obligations.WorkedConfiguration := by
  have hw : ∀ a ∈ std64, a < 2 ^ State.reset.params.w := by decide
  have hstep := step_command (s := State.reset.issue [.command ⟨0x00000011, std64⟩]) rfl
    (decode_of_cfg (c := ⟨0x00000011, std64⟩) (pad := true) rfl hw)
  obtain ⟨t, hexec, hvalid, hpad, hread, hindex, habsent, hresp, -, -⟩ :=
    cfgCommitsADistinctAlphabet (State.reset.setPending []) true std64 rfl hw rfl (by decide)
  exact ⟨t, hstep.trans hexec, hresp, hvalid, hpad, hread 0, hread 62, hread 63,
    (hindex 0x41 (by decide) 0).mpr rfl, (hindex 0x2F (by decide) 63).mpr rfl, habsent 0x3D (by decide) (by decide)⟩

end Sys2Proof.Machine
end

section
/-! `ENC` (41_encode.md): the indices of a group on naturals, and the length of an encoding. -/

namespace Sys2Proof.Machine

/-! ## The index formulas (R89) -/

theorem shiftRight_lt_two_pow {b n m : Nat} (h : b < 2 ^ (n + m)) : b >>> n < 2 ^ m := by
  rw [Nat.shiftRight_eq_div_pow]
  exact Nat.div_lt_of_lt_mul (Nat.pow_add 2 n m ▸ h)

/-- The two middle formulas of R89 join fields of disjoint bits, so `|` is a sum. -/
theorem lowBits_shiftLeft_or_shiftRight (a k : Nat) {b n m : Nat} (h : b < 2 ^ (n + m)) :
    ((a &&& 2 ^ k - 1) <<< m) ||| (b >>> n) = a % 2 ^ k * 2 ^ m + b / 2 ^ n := by
  rw [← Nat.shiftLeft_add_eq_or_of_lt (shiftRight_lt_two_pow h), Nat.and_two_pow_sub_one_eq_mod, Nat.shiftLeft_eq,
    Nat.shiftRight_eq_div_pow]

/-- A 6-bit index joined from the low `k` bits of one byte and the high `m` bits of the next loses nothing. -/
theorem joinedFields_toNat (a b mask : Byte) {k m n : Nat} (hmask : mask.toNat = 2 ^ k - 1) (hk : k + m = 6)
    (hn : n + m = 8) :
    ((((a &&& mask) <<< m) ||| (b >>> n)).setWidth 6).toNat = ((a.toNat &&& mask.toNat) <<< m) ||| (b.toNat >>> n) := by
  have hhigh : (a.toNat &&& mask.toNat) <<< m < 2 ^ 6 := by
    rw [hmask, Nat.and_two_pow_sub_one_eq_mod, ← hk]
    exact Nat.shiftLeft_lt (Nat.mod_lt _ (Nat.two_pow_pos k))
  have hb : b.toNat < 2 ^ (n + m) := hn.symm ▸ b.isLt
  have hlow : b.toNat >>> n < 2 ^ 6 :=
    (shiftRight_lt_two_pow hb).trans_le (Nat.pow_le_pow_right Nat.two_pos (hk ▸ Nat.le_add_left m k))
  rw [BitVec.toNat_setWidth, BitVec.toNat_or, BitVec.toNat_shiftLeft, BitVec.toNat_and, BitVec.toNat_ushiftRight,
    Nat.mod_eq_of_lt (hhigh.trans (by decide)), Nat.mod_eq_of_lt (Nat.or_lt_two_pow hhigh hlow)]

theorem encIdx1_toNat (b1 : Byte) : (encIdx1 b1).toNat = b1.toNat >>> 2 := by
  rw [encIdx1, BitVec.toNat_setWidth, BitVec.toNat_ushiftRight]
  exact Nat.mod_eq_of_lt (shiftRight_lt_two_pow b1.isLt)

theorem encIdx2_toNat (b1 b2 : Byte) : (encIdx2 b1 b2).toNat = ((b1.toNat &&& 0x03) <<< 4) ||| (b2.toNat >>> 4) :=
  joinedFields_toNat b1 b2 0x03 (k := 2) rfl rfl rfl

theorem encIdx3_toNat (b2 b3 : Byte) : (encIdx3 b2 b3).toNat = ((b2.toNat &&& 0x0F) <<< 2) ||| (b3.toNat >>> 6) :=
  joinedFields_toNat b2 b3 0x0F (k := 4) rfl rfl rfl

theorem encIdx4_toNat (b3 : Byte) : (encIdx4 b3).toNat = b3.toNat &&& 0x3F := by
  rw [encIdx4, BitVec.toNat_setWidth, BitVec.toNat_and]
  exact Nat.mod_eq_of_lt (Nat.and_lt_two_pow _ (by decide))

/-- R89: on naturals the four formulas are quotients and remainders, which put the three bytes together again. -/
theorem encoderFormulas_sum (b1 b2 b3 : Byte) :
    (b1.toNat >>> 2) * 2 ^ 18 + (((b1.toNat &&& 0x03) <<< 4) ||| (b2.toNat >>> 4)) * 2 ^ 12 +
        (((b2.toNat &&& 0x0F) <<< 2) ||| (b3.toNat >>> 6)) * 2 ^ 6 + (b3.toNat &&& 0x3F) =
      b1.toNat * 2 ^ 16 + b2.toNat * 2 ^ 8 + b3.toNat := by
  have h1 : b1.toNat >>> 2 = b1.toNat / 2 ^ 2 := Nat.shiftRight_eq_div_pow _ _
  have h2 : ((b1.toNat &&& 0x03) <<< 4) ||| (b2.toNat >>> 4) = b1.toNat % 2 ^ 2 * 2 ^ 4 + b2.toNat / 2 ^ 4 :=
    lowBits_shiftLeft_or_shiftRight b1.toNat 2 b2.isLt
  have h3 : ((b2.toNat &&& 0x0F) <<< 2) ||| (b3.toNat >>> 6) = b2.toNat % 2 ^ 4 * 2 ^ 2 + b3.toNat / 2 ^ 6 :=
    lowBits_shiftLeft_or_shiftRight b2.toNat 4 b3.isLt
  have h4 : b3.toNat &&& 0x3F = b3.toNat % 2 ^ 6 := Nat.and_two_pow_sub_one_eq_mod _ 6
  rw [h1, h2, h3, h4]
  omega

/-- Settles O33: each index is its formula, and the formulas add up to the group. -/
theorem encoderIndicesAreTheFormulas : Obligations.EncoderIndicesAreTheFormulas := by
  intro b1 b2 b3
  rw [encIdx1_toNat, encIdx2_toNat, encIdx3_toNat, encIdx4_toNat]
  exact ⟨rfl, rfl, rfl, rfl, encoderFormulas_sum b1 b2 b3⟩

/-! ## The empty payload (R91) -/

theorem withinCap_zero (cap : Option Nat) : withinCap cap 0 = true := by cases cap <;> simp [withinCap]

/-- Settles O36: no limit excludes the empty payload, and it has no group to read a table for. -/
theorem emptyPayloadEncodesToNothing : Obligations.EmptyPayloadEncodesToNothing := fun _ hv =>
  exec_enc_of_encText hv (withinCap_zero _) rfl

/-! ## The length laws (R92) -/

section
variable {lut : AlphabetLut} {padSym : Symbol} {pad : Bool}

theorem encLane_length {live : Bool} {i : Index} {lane : List Symbol}
    (h : encLane lut padSym pad live i = some lane) : lane.length = (live || pad).toNat := by
  cases live with
  | true =>
    obtain ⟨a, -, rfl⟩ := Option.map_eq_some_iff.mp h
    rfl
  | false => cases pad <;> cases h <;> rfl

/-- R90: a group has two symbols and those of its last two lanes. -/
theorem encGroup_length {b1 b2 b3 : Byte} {r : Nat} {group : List Symbol}
    (h : encGroup lut padSym b1 b2 b3 r pad = some group) :
    group.length = 2 + (decide (2 ≤ r) || pad).toNat + (decide (r = 3) || pad).toNat := by
  unfold encGroup at h
  split at h
  next a1 a2 lane3 lane4 _ _ h3 h4 =>
    cases h
    rw [List.length_cons, List.length_cons, List.length_append, encLane_length h3, encLane_length h4]
    omega
  next => cases h

theorem dataSymbols_add_three (n : Nat) : dataSymbols (n + 3) = 4 + dataSymbols n := by
  unfold dataSymbols
  omega

theorem padCount_add_three (pad : Bool) (n : Nat) : padCount pad (n + 3) = padCount pad n := by
  rw [padCount, Nat.add_mod_right, padCount]

/-- An encoding has the payload's data symbols and its pads (R96), whatever the alphabet table holds. -/
theorem encText_length : ∀ {D : List Byte} {out : List Symbol}, encText lut padSym pad D = some out →
    out.length = dataSymbols D.length + padCount pad D.length
  | [], _, h => by
    cases h
    cases pad <;> rfl
  | [b1], _, h => by
    rw [encGroup_length h]
    cases pad <;> simp [dataSymbols, padCount]
  | [b1, b2], _, h => by
    rw [encGroup_length h]
    cases pad <;> simp [dataSymbols, padCount]
  | b1 :: b2 :: b3 :: rest, _, h => by
    rw [encText] at h
    split at h
    next group out hgroup hrest =>
      cases h
      have hgroup4 : group.length = 4 := encGroup_length hgroup
      simp only [List.length_append, List.length_cons, hgroup4, encText_length hrest, dataSymbols_add_three,
        padCount_add_three]
      omega
    next => cases h

end

theorem dataSymbols_eq (n : Nat) : dataSymbols n = 4 * (n / 3) + [0, 2, 3].getD (n % 3) 0 := by
  have hn := Nat.div_add_mod n 3
  unfold dataSymbols
  obtain h | h | h : n % 3 = 0 ∨ n % 3 = 1 ∨ n % 3 = 2 := by omega
  all_goals
    simp only [h, List.getD_cons_zero, List.getD_cons_succ]
    omega

/-- The pads fill the last group up to four symbols. -/
theorem dataSymbols_add_padCount (n : Nat) : dataSymbols n + padCount true n = 4 * ((n + 2) / 3) := by
  rw [dataSymbols_eq, padCount, if_pos rfl]
  obtain h | h | h : n % 3 = 0 ∨ n % 3 = 1 ∨ n % 3 = 2 := by omega
  all_goals
    simp only [h, List.getD_cons_zero, List.getD_cons_succ]
    omega

/-- The output of an `ENC` that answers `OK` is the text of its payload. -/
theorem encText_of_exec_enc {s : State} {D : List Byte} {out : List Symbol}
    (h : exec (.enc D) s = .next (s.respond (okResponse (.symbols out)))) :
    encText s.alphabetLut s.params.padSym s.padEn D = some out := by
  rw [exec] at h
  cases hr : refuseBytes s.params.maxEncLen D with
  | some r =>
    rw [execEnc_refused hr] at h
    cases h
  | none =>
    obtain ⟨-, e⟩ | ⟨out', -, ht, e⟩ | ⟨-, -, e⟩ := execEnc_cases hr <;> rw [e] at h
    · have hresp := (s.respond_inj _ _).mp (Host.Outcome.next.inj h)
      cases congrArg Response.result hresp
    · have hresp := (s.respond_inj _ _).mp (Host.Outcome.next.inj h)
      cases congrArg Response.out hresp
      exact ht
    · cases h

/-- Settles O37: the output is the data symbols and the pads. -/
theorem encodingLengthLaws : Obligations.EncodingLengthLaws := by
  intro s D out h
  have hlen := encText_length (encText_of_exec_enc h)
  refine ⟨fun hpad => ?_, fun hpad => ?_⟩ <;> rw [hpad] at hlen
  · exact hlen.trans (dataSymbols_add_padCount D.length)
  · exact hlen.trans (dataSymbols_eq D.length)

end Sys2Proof.Machine
end

section
/-! Pad stripping (R102): the trailing pad run is what `List.rtakeWhile` takes, and the stripped text is what
`List.rdropWhile` leaves. -/

namespace Sys2Proof.Machine

theorem padRun_eq_length_rtakeWhile (padSym : Symbol) (text : List Symbol) :
    padRun padSym text = (text.rtakeWhile (· == padSym)).length := by
  rw [List.rtakeWhile, List.length_reverse, padRun]

theorem stripPads_on (padSym : Symbol) (text : List Symbol) :
    stripPads padSym true text = text.rdropWhile (· == padSym) := by
  have hsplit : text.rdropWhile (· == padSym) ++ text.rtakeWhile (· == padSym) = text :=
    List.rdropWhile_append_rtakeWhile
  have hlen := congrArg List.length hsplit
  rw [List.length_append] at hlen
  rw [stripPads, if_pos rfl, padRun_eq_length_rtakeWhile, Nat.sub_eq_of_eq_add hlen.symm]
  exact (List.prefix_iff_eq_take.mp (List.rdropWhile_prefix _ text)).symm

/-- With padding on, what is stripped is a run of pads. -/
theorem stripPads_append_pads (padSym : Symbol) (text : List Symbol) :
    stripPads padSym true text ++ List.replicate (padRun padSym text) padSym = text := by
  have hpads : text.rtakeWhile (· == padSym) = List.replicate (padRun padSym text) padSym :=
    List.eq_replicate_iff.mpr
      ⟨(padRun_eq_length_rtakeWhile padSym text).symm,
        fun _ ha => beq_iff_eq.mp (List.mem_rtakeWhile_imp (p := (· == padSym)) ha)⟩
  rw [stripPads_on, ← hpads, List.rdropWhile_append_rtakeWhile]

/-- With padding on, the run stripped is the longest. -/
theorem getLast?_stripPads_ne (padSym : Symbol) (text : List Symbol) :
    (stripPads padSym true text).getLast? ≠ some padSym := by
  rw [stripPads_on]
  intro h
  obtain ⟨hne, hlast⟩ := List.mem_getLast?_eq_getLast h
  exact List.rdropWhile_last_not _ _ hne (beq_iff_eq.mpr hlast.symm)

/-- R111: pads after a text are stripped with its own. -/
theorem stripPads_append_replicate (padSym : Symbol) (text : List Symbol) (n : Nat) :
    stripPads padSym true (text ++ List.replicate n padSym) = stripPads padSym true text := by
  conv_lhs => rw [← stripPads_append_pads padSym text, List.append_assoc, List.replicate_append_replicate]
  exact stripPads_unique _ (getLast?_stripPads_ne padSym text)

theorem State.stripped_of_padEn_false {s : State} (h : s.padEn = false) (text : List Symbol) :
    s.stripped text = text := by
  rw [State.stripped, h, stripPads_off]

theorem State.stripped_of_padEn_true {s : State} (h : s.padEn = true) (text : List Symbol) :
    s.stripped text = stripPads s.params.padSym true text := by
  rw [State.stripped, h]

/-- Data symbols followed by pads, as `ENC` emits them, are stripped to the data symbols unless these end in a pad. -/
theorem State.stripped_append_pads {s : State} {front : List Symbol} {n : Nat} (hoff : s.padEn = false → n = 0)
    (hon : s.padEn = true → front.getLast? ≠ some s.params.padSym) :
    s.stripped (front ++ List.replicate n s.params.padSym) = front := by
  cases h : s.padEn with
  | false => rw [State.stripped_of_padEn_false h, hoff h, List.replicate_zero, List.append_nil]
  | true => rw [State.stripped_of_padEn_true h, stripPads_unique n (hon h)]

/-- Settles O38: the run stripped is `padRun`. -/
theorem strippingRemovesTheTrailingPadRun : Obligations.StrippingRemovesTheTrailingPadRun := by
  refine fun s text => ⟨fun hpad => State.stripped_of_padEn_false hpad text, fun hpad => ?_⟩
  rw [State.stripped_of_padEn_true hpad]
  exact ⟨_, (stripPads_append_pads _ text).symm, getLast?_stripPads_ne _ text⟩

end Sys2Proof.Machine
end

section
/-! `DEC` (42_decode.md): what it answers, by the lookups of the stripped text (R101 to R106), and the statements that read
this off. -/

namespace Sys2Proof.Machine

/-! ## The work on a text, by its lookups -/

section
variable {lut : ReverseLut} {q : Nat} {S : List Symbol}

theorem decText_of_lookups_error {e : DecFail} (h : lookups lut q S = .error e) : decText lut q S = .error e := by
  rw [decText_eq, h]

/-- R106: when every symbol hits, a last group of one symbol is the only error left. -/
theorem decText_of_lookups_ok {is : List Index} (h : lookups lut q S = .ok is) :
    decText lut q S = if S.length % 4 = 1 then .error (.truncated (q + S.length)) else .ok (bytesOf is) := by
  rw [decText_eq, h]

theorem lookups_of_decText_ok {out : List Byte} (h : decText lut q S = .ok out) :
    ∃ is, lookups lut q S = .ok is ∧ S.length % 4 ≠ 1 ∧ bytesOf is = out := by
  cases hl : lookups lut q S with
  | error e => rw [decText_of_lookups_error hl] at h; cases h
  | ok is =>
    rw [decText_of_lookups_ok hl] at h
    split at h
    next => cases h
    next hmod => exact ⟨is, rfl, hmod, Except.ok.inj h⟩

theorem exists_lookups_ok (h : ∀ a ∈ S, ∃ i, rlutLookup lut a = some (some i)) : ∃ is, lookups lut q S = .ok is := by
  induction S generalizing q with
  | nil => exact ⟨[], rfl⟩
  | cons a rest ih =>
    obtain ⟨i, hi⟩ := h a List.mem_cons_self
    obtain ⟨is, his⟩ := ih (q := q + 1) fun b hb => h b (List.mem_cons_of_mem a hb)
    exact ⟨i :: is, by simp [lookups, lookupAt, hi, his, bind, Except.bind]⟩

end

/-! ## The answer, by the work on the stripped text -/

section
variable {s : State} {T : List Symbol}

theorem exec_dec_of_symbol {q : Nat} {a : Symbol} (hv : s.cfgValid = true)
    (hr : refuseSymbols s.params s.params.maxDecLen T = none)
    (ht : decText s.reverseLut 0 (s.stripped T) = .error (.symbol q a)) :
    exec (.dec T) s = .next (s.respond (errorResponse .invalidInputSymbol (some q) (some a))) := by
  rw [State.stripped] at ht
  simp [exec, execDec, hr, hv, ht, raise]

theorem exec_dec_of_truncated {m : Nat} (hv : s.cfgValid = true)
    (hr : refuseSymbols s.params s.params.maxDecLen T = none)
    (ht : decText s.reverseLut 0 (s.stripped T) = .error (.truncated m)) :
    exec (.dec T) s = .next (s.respond (errorResponse .invalidInputTruncatedGroup (some m) none)) := by
  rw [State.stripped] at ht
  simp [exec, execDec, hr, hv, ht, raise]

/-- Of an accepted text, `DEC` sees the work on its stripped text only. -/
theorem exec_dec_congr {T' : List Symbol} (hr : refuseSymbols s.params s.params.maxDecLen T = none)
    (hr' : refuseSymbols s.params s.params.maxDecLen T' = none)
    (ht : decText s.reverseLut 0 (s.stripped T) = decText s.reverseLut 0 (s.stripped T')) :
    exec (.dec T) s = exec (.dec T') s := by
  simp only [State.stripped] at ht
  simp only [exec, execDec, hr, hr', ht]

/-- The output of a `DEC` that answers `OK` is the bytes of its stripped text. -/
theorem decText_of_exec_dec {out : List Byte} (h : exec (.dec T) s = .next (s.respond (okResponse (.bytes out)))) :
    decText s.reverseLut 0 (s.stripped T) = .ok out := by
  rw [exec] at h
  cases hr : refuseSymbols s.params s.params.maxDecLen T with
  | some r => rw [execDec_refused hr] at h; cases h
  | none =>
    obtain ⟨-, e⟩ | ⟨out', -, ht, e⟩ | ⟨q, a, -, -, e⟩ | ⟨m, -, -, e⟩ | ⟨-, -, e⟩ := execDec_cases hr <;> rw [e] at h
    case inr.inl =>
      have hresp := (s.respond_inj _ _).mp (Host.Outcome.next.inj h)
      cases congrArg Response.out hresp
      exact ht
    case inr.inr.inr.inr => cases h
    all_goals
      have hresp := (s.respond_inj _ _).mp (Host.Outcome.next.inj h)
      cases congrArg Response.result hresp

end

/-! ## Symbols of the alphabet are symbols of the build -/

theorem State.Inv.lt_of_rlutLookup {s : State} (hs : s.Inv) {a : Symbol} {i : Index}
    (h : rlutLookup s.reverseLut a = some (some i)) : a < 2 ^ s.params.w := by
  rw [← hs.reverse_size]
  exact lt_length_of_rlutAt (by simp [rlutLookup_eq_index.mp h])

theorem State.Inv.lt_of_alutRead {s : State} (hs : s.Inv) (hv : s.cfgValid = true) {a : Symbol} {i : Index}
    (h : alutRead s.alphabetLut i = some a) : a < 2 ^ s.params.w :=
  hs.lt_of_rlutLookup (rlutLookup_index ((hs.configured hv).at_of_read h))

end Sys2Proof.Machine
end

section
/-! Decoding an encoding (R113): the data symbols come back as the payload's bytes, unless the pad stripping cuts into
them. -/

namespace Sys2Proof.Machine

/-- The output of an `ENC` that answers `OK`: the symbols at the payload's indices, then the pads. -/
theorem exists_symbols_of_exec_enc {s : State} (hs : s.Inv) (hv : s.cfgValid = true) {D : List Byte} {out : List Symbol}
    (h : exec (.enc D) s = .next (s.respond (okResponse (.symbols out)))) :
    ∃ symbols, (encIndices D).map (alutRead s.alphabetLut) = symbols.map some ∧
      out = symbols ++ List.replicate (padCount s.padEn D.length) s.params.padSym := by
  have hread := (hs.configured hv).read
  obtain ⟨symbols, hsymbols⟩ := reads_all hread (encIndices D)
  have htext := encText_eq hread s.params.padSym s.padEn D symbols hsymbols
  exact ⟨symbols, hsymbols, Option.some.inj ((encText_of_exec_enc h).symm.trans htext)⟩

theorem dataSymbols_pos {n : Nat} (h : 0 < n) : 0 < dataSymbols n := by
  unfold dataSymbols
  omega

theorem dataSymbols_mod_four_ne_one (n : Nat) : dataSymbols n % 4 ≠ 1 := by
  unfold dataSymbols
  omega

/-- Fewer symbols than `n` bytes need hold fewer bytes. -/
theorem bytes_lt_of_lt_dataSymbols {m n : Nat} (h : m < dataSymbols n) : 6 * m / 8 < n := by
  unfold dataSymbols at h
  omega

theorem getElem?_length_sub_one_append {front : List Symbol} (hne : front ≠ []) (rest : List Symbol) :
    (front ++ rest)[front.length - 1]? = front.getLast? := by
  have hlt : front.length - 1 < front.length := Nat.sub_one_lt (mt List.length_eq_zero_iff.mp hne)
  rw [List.getElem?_append_left hlt, List.getLast?_eq_getElem?]

/-- With padding on, a text that ends in a pad is stripped to a shorter one. -/
theorem exists_stripPads_eq_take_lt {padSym : Symbol} {text : List Symbol} (h : text.getLast? = some padSym) :
    ∃ m, m < text.length ∧ stripPads padSym true text = text.take m := by
  obtain ⟨m, hle, htake, -⟩ := stripPads_eq_take padSym true text
  refine ⟨m, Nat.lt_of_le_of_ne hle fun hm => ?_, htake⟩
  rw [hm, List.take_length] at htake
  exact getLast?_stripPads_ne padSym text (by rw [htake, h])

section
variable {s : State} {D : List Byte} {symbols : List Symbol}
  (hreads : (encIndices D).map (alutRead s.alphabetLut) = symbols.map some)
include hreads

theorem length_of_encIndices_reads : symbols.length = dataSymbols D.length := by
  have hlen := congrArg List.length hreads
  rw [List.length_map, List.length_map, encIndices_length] at hlen
  exact hlen.symm

theorem exists_read_of_mem {a : Symbol} (ha : a ∈ symbols) : ∃ i, alutRead s.alphabetLut i = some a := by
  have hmem : some a ∈ (encIndices D).map (alutRead s.alphabetLut) := hreads ▸ List.mem_map_of_mem ha
  obtain ⟨i, -, hi⟩ := List.mem_map.mp hmem
  exact ⟨i, hi⟩

variable (hs : s.Inv) (hv : s.cfgValid = true)
include hs hv

/-- What `ENC` puts out is a text of W-bit symbols. -/
theorem lt_of_mem_encoding {n : Nat} : ∀ a ∈ symbols ++ List.replicate n s.params.padSym, a < 2 ^ s.params.w := by
  intro a ha
  obtain ha | ha := List.mem_append.mp ha
  · obtain ⟨i, hi⟩ := exists_read_of_mem hreads ha
    exact hs.lt_of_alutRead hv hi
  · obtain ⟨-, hpad, -⟩ := hs.params_ok
    exact List.eq_of_mem_replicate ha ▸ hpad

variable (hcap : withinCap s.params.maxDecLen
  (symbols ++ List.replicate (padCount s.padEn D.length) s.params.padSym).length = true)
include hcap

/-- The round trip: only the pads are stripped, and the data symbols look up to the payload's indices. -/
theorem exec_dec_encoding (hlast : s.padEn = true → symbols.getLast? ≠ some s.params.padSym) :
    exec (.dec (symbols ++ List.replicate (padCount s.padEn D.length) s.params.padSym)) s =
      .next (s.respond (okResponse (.bytes D))) := by
  have hmod : (encIndices D).length % 4 ≠ 1 := encIndices_length D ▸ dataSymbols_mod_four_ne_one D.length
  have hoff : s.padEn = false → padCount s.padEn D.length = 0 := fun h => by simp [padCount, h]
  have hstripped := State.stripped_append_pads hoff hlast
  apply exec_dec_of_decText hv hcap (lt_of_mem_encoding hreads hs hv)
  rw [hstripped, decText_of_reads (hs.configured hv) hreads hmod, bytesOf_encIndices]

/-- The pad collision: the stripping takes data symbols with the pads, so what is left holds fewer bytes, or ends in a
group of one. -/
theorem exec_dec_encoding_of_pad_last (hpad : s.padEn = true) (hlast : symbols.getLast? = some s.params.padSym) :
    ∃ r, exec (.dec (symbols ++ List.replicate (padCount s.padEn D.length) s.params.padSym)) s =
        .next (s.respond r) ∧
      (r.result ≠ .ok ∨ ∃ bytes, r.out = .bytes bytes ∧ bytes.length < D.length) := by
  have hT := lt_of_mem_encoding hreads hs hv (n := padCount s.padEn D.length)
  obtain ⟨m, hm, htake⟩ := exists_stripPads_eq_take_lt hlast
  have hstripped : s.stripped (symbols ++ List.replicate (padCount s.padEn D.length) s.params.padSym) =
      symbols.take m := by
    rw [State.stripped_of_padEn_true hpad, stripPads_append_replicate, htake]
  have hlookups : lookups s.reverseLut 0 (symbols.take m) = .ok ((encIndices D).take m) :=
    lookups_of_reads (hs.configured hv) (by rw [List.map_take, hreads, List.map_take])
  have hlen : (symbols.take m).length = m := List.length_take_of_le hm.le
  by_cases hmod : m % 4 = 1
  · refine ⟨_, exec_dec_of_truncated (m := 0 + m) hv (refuseSymbols_eq_none.mpr ⟨hcap, hT⟩) ?_, .inl (by simp)⟩
    rw [hstripped, decText_of_lookups_ok hlookups, hlen, if_pos hmod]
  · refine ⟨_, exec_dec_of_decText (out := bytesOf ((encIndices D).take m)) hv hcap hT ?_, .inr ⟨_, rfl, ?_⟩⟩
    · rw [hstripped, decText_of_lookups_ok hlookups, hlen, if_neg hmod]
    · have hindices : ((encIndices D).take m).length = m := (lookups_length hlookups).trans hlen
      rw [bytesOf_length _ (hindices.symm ▸ hmod), hindices]
      exact bytes_lt_of_lt_dataSymbols (length_of_encIndices_reads hreads ▸ hm)

end

/-- Settles O45: the last data symbol is the last of the symbols at the payload's indices. -/
theorem decodingAnEncodingGivesTheBytesBack : Obligations.DecodingAnEncodingGivesTheBytesBack := by
  intro s D out hs hv henc hcap
  obtain ⟨symbols, hreads, rfl⟩ := exists_symbols_of_exec_enc hs hv henc
  rw [← length_of_encIndices_reads hreads]
  refine ⟨fun h => ?_, fun hno => ?_, fun hpad hne hlast => ?_⟩
  · refine exec_dec_encoding hreads hs hv hcap fun hpad hlast => ?_
    have hne : symbols ≠ [] := List.ne_nil_of_mem (List.mem_of_getLast? hlast)
    rw [getElem?_length_sub_one_append hne] at h
    exact h.elim (by simp [hpad]) (absurd hlast)
  · refine exec_dec_encoding hreads hs hv hcap fun _ hlast => ?_
    obtain ⟨i, hi⟩ := exists_read_of_mem hreads (List.mem_of_getLast? hlast)
    exact hno i hi
  · have hsymbols : symbols ≠ [] := by
      rw [← List.length_pos_iff, length_of_encIndices_reads hreads]
      exact dataSymbols_pos (List.length_pos_iff.mpr hne)
    rw [getElem?_length_sub_one_append hsymbols] at hlast
    exact exec_dec_encoding_of_pad_last hreads hs hv hcap hpad hlast

end Sys2Proof.Machine
end

section
/-! `DEC` statement by statement: the byte formulas (R107), the length law (R110), the pad count (R111), the first error
(R115) and the bits a final group drops (R109). -/

namespace Sys2Proof.Machine

/-! ## The byte formulas (R107) -/

/-- Fields joined into a byte lose nothing when the high one fits. -/
theorem joinedByte_toNat {x : Byte} {k : Nat} (y : Byte) (h : x.toNat <<< k < 2 ^ 8) :
    (x <<< k ||| y).toNat = x.toNat <<< k ||| y.toNat := by
  rw [BitVec.toNat_or, BitVec.toNat_shiftLeft, Nat.mod_eq_of_lt h]

theorem index_setWidth_toNat (i : Index) : (i.setWidth 8).toNat = i.toNat :=
  BitVec.toNat_setWidth_of_le (by decide)

/-- The low `k` bits of an index, moved to the top of a byte, fit. -/
theorem maskedIndex_shiftLeft_lt (i : Index) (mask : Byte) {k m : Nat} (hmask : mask.toNat = 2 ^ k - 1)
    (hk : k + m = 8) : (i.setWidth 8 &&& mask).toNat <<< m < 2 ^ 8 := by
  rw [BitVec.toNat_and, hmask, Nat.and_two_pow_sub_one_eq_mod, ← hk]
  exact Nat.shiftLeft_lt (Nat.mod_lt _ (Nat.two_pow_pos k))

theorem decByte1_toNat (i1 i2 : Index) : (decByte1 i1 i2).toNat = (i1.toNat <<< 2) ||| (i2.toNat >>> 4) := by
  have hfits : (i1.setWidth 8).toNat <<< 2 < 2 ^ 8 := index_setWidth_toNat i1 ▸ Nat.shiftLeft_lt i1.isLt
  rw [decByte1, joinedByte_toNat _ hfits, BitVec.toNat_ushiftRight, index_setWidth_toNat, index_setWidth_toNat]

theorem decByte2_toNat (i2 i3 : Index) :
    (decByte2 i2 i3).toNat = ((i2.toNat &&& 0x0F) <<< 4) ||| (i3.toNat >>> 2) := by
  rw [decByte2, joinedByte_toNat _ (maskedIndex_shiftLeft_lt i2 0x0F (k := 4) rfl rfl), BitVec.toNat_and,
    BitVec.toNat_ushiftRight, index_setWidth_toNat, index_setWidth_toNat]
  rfl

theorem decByte3_toNat (i3 i4 : Index) : (decByte3 i3 i4).toNat = ((i3.toNat &&& 0x03) <<< 6) ||| i4.toNat := by
  rw [decByte3, joinedByte_toNat _ (maskedIndex_shiftLeft_lt i3 0x03 (k := 2) rfl rfl), BitVec.toNat_and,
    index_setWidth_toNat, index_setWidth_toNat]
  rfl

/-- Settles O40, byte by byte. -/
theorem decoderBytesAreTheFormulas : Obligations.DecoderBytesAreTheFormulas := fun i1 i2 i3 i4 =>
  ⟨decByte1_toNat i1 i2, decByte2_toNat i2 i3, decByte3_toNat i3 i4⟩

/-! ## The length law (R110) -/

theorem six_mul_div_eight {m : Nat} (h : m % 4 ≠ 1) : 6 * m / 8 = 3 * (m / 4) + [0, 0, 1, 2].getD (m % 4) 0 := by
  obtain h | h | h : m % 4 = 0 ∨ m % 4 = 2 ∨ m % 4 = 3 := by omega
  all_goals
    simp only [h, List.getD_cons_zero, List.getD_cons_succ]
    omega

/-- Settles O42: the output is the bytes of one index a symbol. -/
theorem decodingLengthLaw : Obligations.DecodingLengthLaw := by
  intro s text bytes h
  obtain ⟨is, hlookups, hmod, rfl⟩ := lookups_of_decText_ok (decText_of_exec_dec h)
  refine ⟨hmod, ?_⟩
  rw [bytesOf_length is (lookups_length hlookups ▸ hmod), lookups_length hlookups, six_mul_div_eight hmod]

/-! ## The pad count (R111) -/

theorem withinCap_of_le {cap : Option Nat} {m n : Nat} (hle : m ≤ n) (h : withinCap cap n = true) :
    withinCap cap m = true := by
  cases cap with
  | none => rfl
  | some c => exact decide_eq_true (hle.trans (of_decide_eq_true h))

/-- Settles O39: the pads added are stripped with the text's own, and pads only are stripped to nothing. -/
theorem thePadCountIsNotChecked : Obligations.ThePadCountIsNotChecked := by
  intro s text n hok hpad hcap htext
  obtain ⟨-, hpadSym, -⟩ := hok
  have hpads : ∀ a ∈ List.replicate n s.params.padSym, a < 2 ^ s.params.w := fun a ha =>
    List.eq_of_mem_replicate ha ▸ hpadSym
  constructor
  · have hr : refuseSymbols s.params s.params.maxDecLen (text ++ List.replicate n s.params.padSym) = none :=
      refuseSymbols_eq_none.mpr ⟨by simpa using hcap, List.forall_mem_append.mpr ⟨htext, hpads⟩⟩
    have hr' : refuseSymbols s.params s.params.maxDecLen text = none :=
      refuseSymbols_eq_none.mpr ⟨withinCap_of_le (Nat.le_add_right _ _) hcap, htext⟩
    apply exec_dec_congr hr hr'
    simp only [State.stripped_of_padEn_true hpad, stripPads_append_replicate]
  · intro hv
    have hcap' : withinCap s.params.maxDecLen (List.replicate n s.params.padSym).length = true := by
      rw [List.length_replicate]
      exact withinCap_of_le (Nat.le_add_left _ _) hcap
    have hstripped : s.stripped (List.replicate n s.params.padSym) = [] := by
      rw [State.stripped_of_padEn_true hpad]
      exact stripPads_unique (front := []) n (by simp)
    exact exec_dec_of_decText hv hcap' hpads (by rw [hstripped]; rfl)

/-! ## The first error (R115) -/

theorem State.stripped_getElem? {s : State} {text : List Symbol} {q : Nat} (h : q < (s.stripped text).length) :
    (s.stripped text)[q]? = text[q]? := by
  obtain ⟨m, -, htake, hlen⟩ := stripPads_eq_take s.params.padSym s.padEn text
  rw [State.stripped, hlen] at h
  rw [State.stripped, htake, List.getElem?_take_of_lt h]

/-- On a configured block the lookup of a symbol of the build hits or misses. -/
theorem State.Inv.exists_index_of_not_absent {s : State} (hs : s.Inv) (hv : s.cfgValid = true) {a : Symbol}
    (ha : a < 2 ^ s.params.w) (h : rlutLookup s.reverseLut a ≠ some none) :
    ∃ i, rlutLookup s.reverseLut a = some (some i) := by
  obtain hmiss | ⟨i, hi⟩ := (hs.configured hv).written ha
  · exact absurd (rlutLookup_absent hmiss) h
  · exact ⟨i, rlutLookup_index hi⟩

/-- Settles O43: the lookups end at the first symbol that misses, and when none does only the one-symbol group is left. -/
theorem decodingReportsTheFirstError : Obligations.DecodingReportsTheFirstError := by
  intro s text hs hv hcap htext
  have hr := refuseSymbols_eq_none.mpr ⟨hcap, htext⟩
  constructor
  · intro q a hq ha hmiss hfirst
    have hbefore : ∀ m b, m < q → (s.stripped text)[m]? = some b → ∃ i, rlutLookup s.reverseLut b = some (some i) := by
      intro m b hm hb
      rw [State.stripped_getElem? (hm.trans hq)] at hb
      exact hs.exists_index_of_not_absent hv (htext b (List.mem_of_getElem? hb)) (hfirst m b hm hb)
    have herror := lookups_error (q := 0) ((State.stripped_getElem? hq).trans ha) hmiss hbefore
    rw [Nat.zero_add] at herror
    exact exec_dec_of_symbol hv hr (decText_of_lookups_error herror)
  · intro hhits hmod
    have hall : ∀ b ∈ s.stripped text, ∃ i, rlutLookup s.reverseLut b = some (some i) := by
      intro b hb
      obtain ⟨q, hq, rfl⟩ := List.getElem_of_mem hb
      have hget : text[q]? = some (s.stripped text)[q] :=
        (State.stripped_getElem? hq).symm.trans (List.getElem?_eq_getElem hq)
      exact hs.exists_index_of_not_absent hv (htext _ (mem_of_mem_stripPads hb)) (hhits q _ hq hget)
    obtain ⟨is, hlookups⟩ := exists_lookups_ok (q := 0) hall
    apply exec_dec_of_truncated hv hr
    rw [decText_of_lookups_ok hlookups, if_pos hmod, Nat.zero_add]

/-! ## The bits a final group drops (R109) -/

/-- The last index of a text is the last lookup. -/
theorem lookups_concat {lut : ReverseLut} {a : Symbol} {i : Index} (ha : rlutLookup lut a = some (some i)) :
    ∀ (front : List Symbol) (q : Nat), lookups lut q (front ++ [a]) = (lookups lut q front).map (· ++ [i])
  | [], q => by simp [lookups, lookupAt, ha, bind, Except.bind, Except.map]
  | c :: front, q => by
    simp only [List.cons_append, lookups, lookups_concat ha front (q + 1), bind, Except.bind]
    cases lookupAt lut q c <;> cases lookups lut (q + 1) front <;> rfl

theorem decByte1_congr (i1 : Index) {i j : Index} (h : i >>> 4 = j >>> 4) : decByte1 i1 i = decByte1 i1 j := by
  have hnat : i.toNat >>> 4 = j.toNat >>> 4 := congrArg BitVec.toNat h
  exact BitVec.eq_of_toNat_eq (by rw [decByte1_toNat, decByte1_toNat, hnat])

theorem decByte2_congr (i2 : Index) {i j : Index} (h : i >>> 2 = j >>> 2) : decByte2 i2 i = decByte2 i2 j := by
  have hnat : i.toNat >>> 2 = j.toNat >>> 2 := congrArg BitVec.toNat h
  exact BitVec.eq_of_toNat_eq (by rw [decByte2_toNat, decByte2_toNat, hnat])

/-- The last index of a sequence that does not fill its last group counts by its kept bits only. -/
def DropsAlike (n : Nat) (i j : Index) : Prop := n % 4 = 1 ∧ i >>> 4 = j >>> 4 ∨ n % 4 = 2 ∧ i >>> 2 = j >>> 2

theorem bytesOf_concat_congr {i j : Index} : ∀ is : List Index, DropsAlike is.length i j →
    bytesOf (is ++ [i]) = bytesOf (is ++ [j])
  | [], h => by simp [DropsAlike] at h
  | [i1], h => by
    have hbits : i >>> 4 = j >>> 4 := by simpa [DropsAlike] using h
    simp [bytesOf, decGroup, decByte1_congr i1 hbits]
  | [i1, i2], h => by
    have hbits : i >>> 2 = j >>> 2 := by simpa [DropsAlike] using h
    simp [bytesOf, decGroup, decByte2_congr i2 hbits]
  | [_, _, _], h => by simp [DropsAlike] at h
  | i1 :: i2 :: i3 :: i4 :: rest, h => by
    have hrest : DropsAlike rest.length i j := by simpa [DropsAlike, Nat.add_assoc] using h
    simp only [List.cons_append, bytesOf, bytesOf_concat_congr rest hrest]

theorem DropsAlike.succ_mod_ne_one {n : Nat} {i j : Index} (h : DropsAlike n i j) : (n + 1) % 4 ≠ 1 := by
  unfold DropsAlike at h
  omega

theorem decText_concat_congr {lut : ReverseLut} {front : List Symbol} {a b : Symbol} {i j : Index}
    (ha : rlutLookup lut a = some (some i)) (hb : rlutLookup lut b = some (some j))
    (hdrops : DropsAlike front.length i j) (q : Nat) :
    decText lut q (front ++ [a]) = decText lut q (front ++ [b]) := by
  rw [decText_eq, decText_eq, lookups_concat ha, lookups_concat hb, List.length_append, List.length_append]
  cases hfront : lookups lut q front with
  | error e => rfl
  | ok is =>
    have hbytes := bytesOf_concat_congr is (lookups_length hfront ▸ hdrops)
    simp only [Except.map, hbytes, List.length_cons, List.length_nil]

theorem State.stripped_concat {s : State} {front : List Symbol} {a : Symbol}
    (h : s.padEn = true → a ≠ s.params.padSym) : s.stripped (front ++ [a]) = front ++ [a] := by
  have hlast : s.padEn = true → (front ++ [a]).getLast? ≠ some s.params.padSym := fun hpad => by
    simpa using h hpad
  simpa using State.stripped_append_pads (n := 0) (fun _ => rfl) hlast

/-- Settles O44: the two texts are stripped to themselves, and their bytes depend on the kept bits of the last index. -/
theorem discardedBitsAreNotChecked : Obligations.DiscardedBitsAreNotChecked := by
  intro s front a b i j hs hv hcap hfront ha hb hpad (hdrops : DropsAlike front.length i j)
  have hcap' (c : Symbol) : withinCap s.params.maxDecLen (front ++ [c]).length = true := by simpa using hcap
  have hT {c : Symbol} {k : Index} (hc : rlutLookup s.reverseLut c = some (some k)) :
      ∀ x ∈ front ++ [c], x < 2 ^ s.params.w :=
    List.forall_mem_append.mpr ⟨hfront, by simpa using hs.lt_of_rlutLookup hc⟩
  have hstrippedA := State.stripped_concat (front := front) fun h => (hpad h).1
  have hstrippedB := State.stripped_concat (front := front) fun h => (hpad h).2
  constructor
  · apply exec_dec_congr (refuseSymbols_eq_none.mpr ⟨hcap' a, hT ha⟩) (refuseSymbols_eq_none.mpr ⟨hcap' b, hT hb⟩)
    rw [hstrippedA, hstrippedB]
    exact decText_concat_congr ha hb hdrops 0
  · intro hhits
    obtain ⟨is, hlookups⟩ := exists_lookups_ok (q := 0) (S := front ++ [a])
      (List.forall_mem_append.mpr ⟨hhits, by simpa using ⟨i, ha⟩⟩)
    refine ⟨bytesOf is, exec_dec_of_decText hv (hcap' a) (hT ha) ?_⟩
    rw [hstrippedA, decText_of_lookups_ok hlookups, List.length_append]
    exact if_neg hdrops.succ_mod_ne_one

/-! ## The example of R114 -/

/-- Settles O46: the run evaluates to the three responses. -/
theorem encodingADecodingNeedNotGiveTheTextBack : Obligations.EncodingADecodingNeedNotGiveTheTextBack := rfl

end Sys2Proof.Machine
end

section
/-! Steps that stop (R49, R56, R138): a refusal is about a command that is not admitted, and on a state of the invariant no
lookup meets an unwritten entry. -/

namespace Sys2Proof.Machine

theorem not_wf_of_exec_refused {i : Instr} {s : State} {e : Refusal} (h : exec i s = .refused e) :
    ¬ i.wf s.params = true := by
  intro hwf
  cases i with
  | cfg pad A => cases (wf_cfg.mp hwf).symm.trans (exec_cfg_eq_refused.mp h)
  | enc D => cases (wf_enc.mp hwf).symm.trans (exec_enc_eq_refused.mp h)
  | dec T => cases (wf_dec.mp hwf).symm.trans (exec_dec_eq_refused.mp h)
  | illegal w => cases h

/-- A table that reads everywhere encodes every payload. -/
theorem exists_encText {lut : AlphabetLut} (h : ∀ i, ∃ a, alutRead lut i = some a) (padSym : Symbol) (pad : Bool)
    (D : List Byte) : ∃ out, encText lut padSym pad D = some out := by
  obtain ⟨symbols, hsymbols⟩ := reads_all h (encIndices D)
  exact ⟨_, encText_eq h padSym pad D symbols hsymbols⟩

/-- R32, R138: the two faults are reads of unwritten entries, which a configured block does not hold and an unconfigured
one does not read. -/
theorem State.Inv.exec_ne_fault {s : State} (hs : s.Inv) (i : Instr) (f : Fault) : exec i s ≠ .fault f := by
  intro h
  cases i with
  | cfg pad A =>
    cases hr : refuseSymbols s.params s.params.maxCfgLen A with
    | some e => rw [exec_cfg_of_refused hr] at h; cases h
    | none => rw [exec_cfg_of_accepted hr] at h; cases h
  | enc D =>
    rw [exec] at h
    cases hr : refuseBytes s.params.maxEncLen D with
    | some e => rw [execEnc_refused hr] at h; cases h
    | none =>
      obtain ⟨-, e⟩ | ⟨out, -, -, e⟩ | ⟨hv, ht, -⟩ := execEnc_cases hr
      · rw [e] at h; cases h
      · rw [e] at h; cases h
      · obtain ⟨out, hout⟩ := exists_encText (hs.configured hv).read s.params.padSym s.padEn D
        cases ht.symm.trans hout
  | dec T =>
    rw [exec] at h
    cases hr : refuseSymbols s.params s.params.maxDecLen T with
    | some e => rw [execDec_refused hr] at h; cases h
    | none =>
      obtain ⟨-, e⟩ | ⟨out, -, -, e⟩ | ⟨q, a, -, -, e⟩ | ⟨m, -, -, e⟩ | ⟨hv, ht, -⟩ := execDec_cases hr
      case inr.inr.inr.inr =>
        have hsymbols := (refuseSymbols_eq_none.mp hr).2
        exact decText_written (hs.configured hv) (fun a ha => hsymbols a (mem_of_mem_stripPads ha)) ht
      all_goals rw [e] at h; cases h
  | illegal w => cases h

/-- Waiting and a reset have a next state. -/
theorem step_next_or_command (s : State) :
    (∃ t, step s = .next t) ∨ ∃ c rest, s.pending = .command c :: rest := by
  cases hp : s.pending with
  | nil => exact .inl ⟨_, step_idle hp⟩
  | cons x rest =>
    cases x with
    | reset => exact .inl ⟨_, step_reset hp⟩
    | resetDuring c => exact .inl ⟨_, step_resetDuring hp⟩
    | command c => exact .inr ⟨c, rest, rfl⟩

theorem State.Inv.step_ne_fault {s : State} (hs : s.Inv) (f : Fault) : step s ≠ .fault f := by
  intro h
  obtain ⟨t, e⟩ | ⟨c, rest, hp⟩ := step_next_or_command s
  · rw [e] at h; cases h
  · cases hd : decode s.params c with
    | ok i => exact (hs.setPending rest).exec_ne_fault i f (step_command hp hd ▸ h)
    | error e => rw [step_rejected hp hd] at h; cases e <;> cases h

theorem not_admitted_of_step_refused {s : State} {c : Command} {rest : List Input} {e : Refusal}
    (hp : s.pending = .command c :: rest) (h : step s = .refused e) : ¬ Admitted s.params c := by
  rintro ⟨i, hd, hwf⟩
  rw [step_command hp hd] at h
  exact not_wf_of_exec_refused h hwf

/-- Settles O17: a step that neither faults nor is refused has a next state, and on a command that state holds one more
response. -/
theorem admittedCommandsRespondAndNothingFaults : Obligations.AdmittedCommandsRespondAndNothingFaults := by
  refine ⟨fun s c rest hs hp hadm => ?_, fun s hs => hs.step_ne_fault, fun s e h => ?_⟩
  · cases h : step s with
    | next t =>
      obtain ⟨-, -, r, hr⟩ := eachCommandReturnsOneResponse s t c rest hp h
      exact ⟨t, r, rfl, hr⟩
    | fault f => exact absurd h (hs.step_ne_fault f)
    | refused e => exact absurd hadm (not_admitted_of_step_refused hp h)
  · obtain ⟨t, hnext⟩ | ⟨c, rest, hp⟩ := step_next_or_command s
    · rw [hnext] at h; cases h
    · exact ⟨c, rest, hp, not_admitted_of_step_refused hp h⟩

end Sys2Proof.Machine
end

section
/-! The result table (R120 to R122): each command's responses, row by row. -/

namespace Sys2Proof.Machine

/-! ## Codes and kinds -/

theorem Result.code_toNat_le (r : Result) : r.code.toNat ≤ 6 := by
  cases r <;> decide

theorem Result.kind_eq_invalidAlphabet {r : Result} :
    r.kind = some .invalidAlphabet ↔ r = .invalidAlphabetLength ∨ r = .invalidAlphabetDuplicate := by
  cases r <;> decide

theorem Result.kind_eq_invalidInput {r : Result} :
    r.kind = some .invalidInput ↔ r = .invalidInputSymbol ∨ r = .invalidInputTruncatedGroup := by
  cases r <;> decide

/-! ## CFG -/

/-- The symbols before the repeat that the scan reports are distinct. -/
theorem nodup_take_of_firstRepeat {A : List Symbol} {j : Nat} {a : Symbol} (h : firstRepeat A = some (j, a)) :
    (A.take j).Nodup := by
  obtain ⟨-, -, hfirst⟩ := firstRepeat_some h
  refine List.pairwise_iff_getElem.mpr fun i k _ hk hik heq => ?_
  obtain ⟨hkj, hkA⟩ := lt_min_iff.mp (List.length_take ▸ hk)
  rw [List.getElem_take, List.getElem_take] at heq
  have hkth : A[k]? = some A[k] := List.getElem?_eq_getElem hkA
  have hith : A[i]? = some A[k] := heq ▸ List.getElem?_eq_getElem (hik.trans hkA)
  exact hfirst k A[k] hkj hkth (mem_take_iff_exists_getElem?.mpr ⟨i, hik, hith⟩)

/-- All that `CFG` answers. -/
theorem cfgResponse_cases (A : List Symbol) :
    (A.length ≠ 64 ∧ cfgResponse A = errorResponse .invalidAlphabetLength (some A.length) none) ∨
    (∃ j a, firstRepeat A = some (j, a) ∧
      cfgResponse A = errorResponse .invalidAlphabetDuplicate (some j) (some a)) ∨
    cfgResponse A = okResponse .empty := by
  by_cases hl : A.length = 64
  · cases hr : firstRepeat A with
    | none => exact .inr (.inr (cfgResponse_of_nodup hl (firstRepeat_none.mp hr)))
    | some ja => exact .inr (.inl ⟨ja.1, ja.2, rfl, cfgResponse_of_repeat hl hr⟩)
  · exact .inl ⟨hl, cfgResponse_of_length_ne hl⟩

theorem cfgResponse_result_ne_notConfigured (A : List Symbol) : (cfgResponse A).result ≠ .notConfigured := by
  obtain ⟨-, e⟩ | ⟨j, a, -, e⟩ | e := cfgResponse_cases A <;> simp [e]

theorem responses_of_exec_cfg {pad : Bool} {A : List Symbol} {s t : State} (h : exec (.cfg pad A) s = .next t) :
    t.responses = s.responses ++ [cfgResponse A] := by
  cases hr : refuseSymbols s.params s.params.maxCfgLen A with
  | some e => rw [exec_cfg_of_refused hr] at h; cases h
  | none =>
    rw [exec_cfg_of_accepted hr] at h
    obtain rfl := Host.Outcome.next.inj h
    simp

theorem fitsRow_cfgResponse {c : Command} {pad : Bool} (hk : decodeWord c.word = .cfg pad) (s : State) :
    FitsRow s c (cfgResponse c.payload) := by
  obtain ⟨hl, e⟩ | ⟨j, a, hr, e⟩ | e := cfgResponse_cases c.payload <;> rw [e]
  · exact ⟨⟨pad, hk⟩, hl, rfl, rfl⟩
  · obtain ⟨hj, hmem, -⟩ := firstRepeat_some hr
    exact ⟨⟨pad, hk⟩, j, a, rfl, rfl, hj, hmem, nodup_take_of_firstRepeat hr⟩
  · exact ⟨by simp [hk], rfl, rfl⟩

/-! ## ENC -/

theorem fitsRow_of_exec_enc {c : Command} {D : List Byte} {s t : State} (hk : decodeWord c.word = .enc)
    (h : exec (.enc D) s = .next t) : ∃ r, t = s.respond r ∧ FitsRow s c r := by
  rw [exec] at h
  cases hr : refuseBytes s.params.maxEncLen D with
  | some e => rw [execEnc_refused hr] at h; cases h
  | none =>
    obtain ⟨hv, e⟩ | ⟨out, -, -, e⟩ | ⟨-, -, e⟩ := execEnc_cases hr <;> rw [e] at h
    · exact ⟨_, (Host.Outcome.next.inj h).symm, .inl hk, hv, rfl, rfl⟩
    · exact ⟨_, (Host.Outcome.next.inj h).symm, by simp [hk], rfl, rfl⟩
    · cases h

/-! ## DEC -/

/-- How the work on a text ends early, with what is then so of the text. -/
theorem decText_error_cases {lut : ReverseLut} {q : Nat} {S : List Symbol} {e : DecFail}
    (h : decText lut q S = .error e) :
    e = .unwritten ∨
    (∃ n a, e = .symbol (q + n) a ∧ S[n]? = some a ∧ rlutLookup lut a = some none) ∨
    (e = .truncated (q + S.length) ∧ S.length % 4 = 1) := by
  cases hl : lookups lut q S with
  | error e' =>
    obtain rfl : e' = e := Except.error.inj ((decText_of_lookups_error hl).symm.trans h)
    exact (lookups_error_cases hl).imp_right .inl
  | ok is =>
    rw [decText_of_lookups_ok hl] at h
    split at h
    next hmod => exact .inr (.inr ⟨(Except.error.inj h).symm, hmod⟩)
    next => cases h

theorem fitsRow_of_exec_dec {c : Command} {s t : State} (hk : decodeWord c.word = .dec)
    (h : exec (.dec c.payload) s = .next t) : ∃ r, t = s.respond r ∧ FitsRow s c r := by
  rw [exec] at h
  cases hr : refuseSymbols s.params s.params.maxDecLen c.payload with
  | some e => rw [execDec_refused hr] at h; cases h
  | none =>
    obtain ⟨hv, e⟩ | ⟨out, -, -, e⟩ | ⟨q, a, -, ht, e⟩ | ⟨m, -, ht, e⟩ | ⟨-, -, e⟩ := execDec_cases hr <;> rw [e] at h
    · exact ⟨_, (Host.Outcome.next.inj h).symm, .inr hk, hv, rfl, rfl⟩
    · exact ⟨_, (Host.Outcome.next.inj h).symm, by simp [hk], rfl, rfl⟩
    · refine ⟨_, (Host.Outcome.next.inj h).symm, hk, q, a, rfl, rfl, ?_⟩
      obtain he | ⟨n, b, he, hget, hmiss⟩ | ⟨he, -⟩ := decText_error_cases ht <;> cases he
      rw [Nat.zero_add]
      obtain ⟨hlt, -⟩ := List.getElem?_eq_some_iff.mp hget
      exact ⟨(State.stripped_getElem? hlt).symm.trans hget, hlt, hmiss⟩
    · obtain he | ⟨n, b, he, -⟩ | ⟨he, hmod⟩ := decText_error_cases ht <;> cases he
      exact ⟨_, (Host.Outcome.next.inj h).symm, hk, hmod, congrArg some (Nat.zero_add _), rfl⟩
    · cases h

/-! ## All four -/

theorem exec_illegal (word : CmdWord) (s : State) :
    exec (.illegal word) s = .next (s.respond (errorResponse .illegalCommand none none)) := rfl

/-- R120: the response of a command fits its row. -/
theorem exists_fitsRow_of_exec {c : Command} {i : Instr} {s t : State} (hd : decode s.params c = .ok i)
    (h : exec i s = .next t) : ∃ r, t.responses = s.responses ++ [r] ∧ FitsRow s c r := by
  obtain ⟨pad, hk, -, rfl⟩ | ⟨hk, -, rfl⟩ | ⟨hk, -, rfl⟩ | ⟨hk, rfl⟩ := decode_cases hd
  · exact ⟨_, responses_of_exec_cfg h, fitsRow_cfgResponse hk s⟩
  · obtain ⟨r, rfl, hfits⟩ := fitsRow_of_exec_enc hk h
    exact ⟨r, rfl, hfits⟩
  · obtain ⟨r, rfl, hfits⟩ := fitsRow_of_exec_dec hk h
    exact ⟨r, rfl, hfits⟩
  · obtain rfl := Host.Outcome.next.inj ((exec_illegal c.word s).symm.trans h)
    exact ⟨_, rfl, hk, rfl, rfl⟩

/-- A row is about the command and the block, not about the inputs still to come. -/
theorem fitsRow_setPending {s : State} {c : Command} {r : Response} {rest : List Input} :
    FitsRow (s.setPending rest) c r ↔ FitsRow s c r := Iff.rfl

/-- Settles O22: the codes are evaluated, and the response of a command fits its row whichever command it is. -/
theorem responsesFitTheResultTable : Obligations.ResponsesFitTheResultTable := by
  refine ⟨by decide, fun r => ⟨Result.kind_eq_invalidAlphabet, Result.kind_eq_invalidInput⟩, ?_⟩
  intro s t c rest r hp h hr
  cases hd : decode s.params c with
  | error e => rw [step_rejected hp hd] at h; cases e <;> cases h
  | ok i =>
    obtain ⟨r', hr', hfits⟩ := exists_fitsRow_of_exec (s := s.setPending rest) hd (step_command hp hd ▸ h)
    obtain rfl : r' = r := by simpa [hr] using hr'.symm
    exact ⟨fitsRow_setPending.mp hfits, r'.result.code_toNat_le⟩

/-- Settles O23: an accepted `ENC` or `DEC` reads `CFG_VALID` first, and `CFG` answers one of its three results. -/
theorem unconfiguredCommandsAreTurnedAway : Obligations.UnconfiguredCommandsAreTurnedAway := by
  refine ⟨fun s D hv hcap => exec_enc_unconfigured hv (refuseBytes_eq_none.mpr hcap),
    fun s T hv hcap hT => exec_dec_unconfigured hv (refuseSymbols_eq_none.mpr ⟨hcap, hT⟩), ?_⟩
  intro s t pad A r h hr
  obtain rfl : cfgResponse A = r := by simpa [hr] using (responses_of_exec_cfg h).symm
  exact cfgResponse_result_ne_notConfigured A

/-- Settles O24: it is the meaning of an illegal word. -/
theorem illegalCommandIsAnswered : Obligations.IllegalCommandIsAnswered := fun s word => exec_illegal word s

end Sys2Proof.Machine
end

section
/-! Reset (R140 to R142): it restores the reset state whenever it arrives, and nothing else unconfigures the block. -/

namespace Sys2Proof.Machine

/-- R140, R142: a reset has one effect, between commands and during one. -/
theorem step_of_reset_input {s : State} {rest : List Input}
    (h : s.pending = .reset :: rest ∨ ∃ c, s.pending = .resetDuring c :: rest) :
    step s = .next (s.setPending rest).resetElements := by
  obtain hp | ⟨c, hp⟩ := h
  · exact step_reset hp
  · exact step_resetDuring hp

/-- R141: no command unconfigures the block. -/
theorem exec_keeps_configured {i : Instr} {s t : State} (hv : s.cfgValid = true) (h : exec i s = .next t) :
    t.cfgValid = true := by
  obtain ⟨rs, -, hconfigured⟩ := exec_configuredByOk h
  exact hconfigured.mpr (.inl hv)

/-- Settles O14: of the three kinds of step, waiting and a command keep a configured block configured. -/
theorem onlyAResetUnconfigures : Obligations.OnlyAResetUnconfigures := by
  refine ⟨fun s t h hs ht => ?_, fun s rest hp => ⟨_, step_of_reset_input hp, State.resetElements_cfgValid _⟩⟩
  obtain ⟨-, rfl⟩ | ⟨rest, hp, -⟩ | ⟨c, rest, i, -, -, hexec⟩ := step_next_cases h
  · cases hs.symm.trans ht
  · exact ⟨rest, hp⟩
  · cases (exec_keeps_configured (s := s.setPending rest) hs hexec).symm.trans ht

/-- Settles O11: the step is a reset of the elements, which leaves nothing in the tables to read. -/
theorem resetInputRestoresTheResetState : Obligations.ResetInputRestoresTheResetState := fun _ _ hp =>
  ⟨_, step_reset hp, State.resetElements_cfgValid _, State.resetElements_padEn _, alutRead_resetElements _,
    rlutLookup_resetElements _⟩

/-- Settles O12: the step resets the elements, whatever the command, and resetting them adds no response. -/
theorem resetDuringACommandAbandonsIt : Obligations.ResetDuringACommandAbandonsIt := fun s _ rest hp _ =>
  ⟨_, step_resetDuring hp,
    (State.resetElements_responses (s.setPending rest)).trans (State.setPending_responses s rest),
    State.resetElements_cfgValid _, State.resetElements_padEn _, alutRead_resetElements _,
    rlutLookup_resetElements _⟩

end Sys2Proof.Machine
end

section
/-! The model's choices on the inputs: waiting keeps the whole state (log 2), and a reset keeps the host's side (log 9). -/

namespace Sys2Proof.Machine

/-- Settles O7: it is the model's own law of a step that waits. -/
theorem stepWithoutInputChangesNothing : Obligations.StepWithoutInputChangesNothing := fun _ => step_idle

/-- Settles O13: the step resets the elements and takes one input, and neither touches the rest of the host's side. -/
theorem resetKeepsTheHostSide : Obligations.ResetKeepsTheHostSide := by
  intro s rest hp
  have hparams : (s.setPending rest).resetElements.params = s.params := by simp
  have hpending : (s.setPending rest).resetElements.pending = rest := by simp
  have hresponses : (s.setPending rest).resetElements.responses = s.responses := by simp
  exact ⟨_, step_of_reset_input hp, hparams, hpending, hresponses, State.resetElements_cfgValid _,
    State.resetElements_padEn _, alutRead_resetElements _, rlutLookup_resetElements _⟩

end Sys2Proof.Machine
end
